-- ==== Sys2Proof/Word.lean ====
section
/-! DEFINITION. The word types and the named constants of 00_scope.md rules R9 and R10. -/

namespace Sys2Proof

/-- A sample of the eight monitored lines, or one byte lane of a buffer word. -/
abbrev Byte := BitVec 8

/-- A trace record: one word of the trace buffer (R80). -/
abbrev Word := BitVec 32

/-- A reading of the 24-bit down-counter (R9). -/
abbrev Tick := BitVec 24

/-- The 23-bit count field of a trace record (R80). -/
abbrev Count := BitVec 23

/-- The 64-bit two's-complement budget register (R25). -/
abbrev Budget := BitVec 64

/-- The long-record unit in ticks, `2^23` (R10). -/
abbrev UNIT : Nat := 0x800000

/-- The largest count field value, `2^23 - 1` (R10). -/
abbrev CMAX : Nat := 0x7FFFFF

/-- The modulus of tick arithmetic, `2^24` (R10). -/
abbrev TMOD : Nat := 0x1000000

end Sys2Proof
end

