-- ==== Sys2Proof/Syntax.lean ====
section
/-! DEFINITION. The rows of spec/opcode_table.json as one inductive type, and the step kinds of 00_scope.md rule R16. -/

namespace Sys2Proof

/-- One constructor per row of spec/opcode_table.json. A selector row's arguments are the selector bits that the row ignores
(the `x` of R90), so that every selector value is exactly one term (log 20). The operands `tmax_ms`, `tick_in` and `level_in`
of an operation are input ports (R89) and stand in the state. -/
inductive Instr where
  /-- RESET, `1 xx x x x x x` (R220). -/
  | reset (st : BitVec 2) (start tmo chg mrg full : Bool)
  /-- START, `0 x0 1 x x x x` (R151); `stHigh` is bit 6, the high bit of `st`. -/
  | start (stHigh tmo chg mrg full : Bool)
  /-- IDLE_HOLD, `0 00 0 x x x x` (R152). -/
  | idleHold (tmo chg mrg full : Bool)
  /-- TERM_HOLD, `0 10 0 x x x x` (R161). -/
  | termHold (tmo chg mrg full : Bool)
  /-- RUN_FULL, `0 01 x x x x 1` (R159). -/
  | runFull (start tmo chg mrg : Bool)
  /-- RUN_TMO_MERGE, `0 01 x 1 x 1 0` (R157). -/
  | runTmoMerge (start chg : Bool)
  /-- RUN_TMO_APPEND, `0 01 x 1 x 0 0` (R156). -/
  | runTmoAppend (start chg : Bool)
  /-- RUN_CHANGE, `0 01 x 0 1 x 0` (R155). -/
  | runChange (start mrg : Bool)
  /-- RUN_WAIT, `0 01 x 0 0 x 0` (R154). -/
  | runWait (start mrg : Bool)
  /-- RESERVED_ST11, `0 11 x x x x x` (R91). -/
  | reservedSt11 (start tmo chg mrg full : Bool)
  /-- REC_SHORT: the record word `{0, cnt, smp}` (R81). -/
  | recShort (cnt : Count) (smp : Byte)
  /-- REC_LONG: the record word `{1, cnt, smp}` (R82). -/
  | recLong (cnt : Count) (smp : Byte)
  /-- READ: the combinational read of the inspection port (R190). -/
  | read
deriving DecidableEq, Repr

/-- The step kinds of R16, and the reserved selector of R91. -/
inductive Operation where
  | reset | start | idleHold | termHold | runFull | runTmoMerge | runTmoAppend | runChange | runWait | reserved
deriving DecidableEq, Repr

/-- The step kind of a selector row; a record word and READ are no steps (R16). -/
def Instr.operation : Instr → Option Operation
  | .reset _ _ _ _ _ _ => some .reset
  | .start _ _ _ _ _ => some .start
  | .idleHold _ _ _ _ => some .idleHold
  | .termHold _ _ _ _ => some .termHold
  | .runFull _ _ _ _ => some .runFull
  | .runTmoMerge _ _ => some .runTmoMerge
  | .runTmoAppend _ _ => some .runTmoAppend
  | .runChange _ _ => some .runChange
  | .runWait _ _ => some .runWait
  | .reservedSt11 _ _ _ _ _ => some .reserved
  | .recShort _ _ => none
  | .recLong _ _ => none
  | .read => none

end Sys2Proof
end

