-- ==== Sys2Proof/Decode.lean ====
section
/-! DEFINITION. The decoder and the encoder of 30_encoding.md: the step selector (R89, R90), the record word (R80, R83, R84)
and READ, which no bits select (44_inspect.md R190). -/

namespace Sys2Proof

/-- One row of the operation map of R90: a selector belongs to it when `sel & mask == value`. -/
structure SelectorRow where
  operation : Operation
  value : Byte
  mask : Byte
deriving DecidableEq, Repr

/-- The operation map of R90, row by row. -/
def selectorRows : List SelectorRow :=
  [⟨.reset, 0x80, 0x80⟩, ⟨.start, 0x10, 0xB0⟩, ⟨.idleHold, 0x00, 0xF0⟩, ⟨.termHold, 0x40, 0xF0⟩,
   ⟨.runFull, 0x21, 0xE1⟩, ⟨.runTmoMerge, 0x2A, 0xEB⟩, ⟨.runTmoAppend, 0x28, 0xEB⟩, ⟨.runChange, 0x24, 0xED⟩,
   ⟨.runWait, 0x20, 0xED⟩, ⟨.reserved, 0x60, 0xE0⟩]

/-- Whether a selector belongs to a row of R90. -/
def SelectorRow.covers (r : SelectorRow) (sel : Byte) : Bool := sel &&& r.mask == r.value

/-- The selector `{rst, st[1:0], start, tmo, chg, mrg, full}` (R89). -/
def packSelector (rst : Bool) (st : BitVec 2) (start tmo chg mrg full : Bool) : Byte :=
  BitVec.ofBool rst ++ st ++ BitVec.ofBool start ++ BitVec.ofBool tmo ++ BitVec.ofBool chg ++ BitVec.ofBool mrg ++
    BitVec.ofBool full

/-- The fields of a selector (R89). -/
def selRst (sel : Byte) : Bool := sel.getLsbD 7
/-- Bits 6:5 of a selector. -/
def selSt (sel : Byte) : BitVec 2 := sel.extractLsb' 5 2
/-- Bit 4 of a selector. -/
def selStart (sel : Byte) : Bool := sel.getLsbD 4
/-- Bit 3 of a selector. -/
def selTmo (sel : Byte) : Bool := sel.getLsbD 3
/-- Bit 2 of a selector. -/
def selChg (sel : Byte) : Bool := sel.getLsbD 2
/-- Bit 1 of a selector. -/
def selMrg (sel : Byte) : Bool := sel.getLsbD 1
/-- Bit 0 of a selector. -/
def selFull (sel : Byte) : Bool := sel.getLsbD 0

/-- The operation that a selector picks, by the rows of R90 in the table's order. The rows cover every selector, so what the
first nine leave is the reserved row. -/
def decodeSelector (sel : Byte) : Instr :=
  if sel &&& 0x80 = 0x80 then
    .reset (selSt sel) (selStart sel) (selTmo sel) (selChg sel) (selMrg sel) (selFull sel)
  else if sel &&& 0xB0 = 0x10 then .start (sel.getLsbD 6) (selTmo sel) (selChg sel) (selMrg sel) (selFull sel)
  else if sel &&& 0xF0 = 0x00 then .idleHold (selTmo sel) (selChg sel) (selMrg sel) (selFull sel)
  else if sel &&& 0xF0 = 0x40 then .termHold (selTmo sel) (selChg sel) (selMrg sel) (selFull sel)
  else if sel &&& 0xE1 = 0x21 then .runFull (selStart sel) (selTmo sel) (selChg sel) (selMrg sel)
  else if sel &&& 0xEB = 0x2A then .runTmoMerge (selStart sel) (selChg sel)
  else if sel &&& 0xEB = 0x28 then .runTmoAppend (selStart sel) (selChg sel)
  else if sel &&& 0xED = 0x24 then .runChange (selStart sel) (selMrg sel)
  else if sel &&& 0xED = 0x20 then .runWait (selStart sel) (selMrg sel)
  else .reservedSt11 (selStart sel) (selTmo sel) (selChg sel) (selMrg sel) (selFull sel)

/-- The format bit of a record, bit 31 (R80): 0 is short, 1 is long. -/
def recFmt (w : Word) : Bool := w.getLsbD 31
/-- The count field of a record, bits 30:8 (R80). -/
def recCnt (w : Word) : Count := w.extractLsb' 8 23
/-- The sample field of a record, bits 7:0 (R80). -/
def recSmp (w : Word) : Byte := w.extractLsb' 0 8

/-- The record word `{fmt, cnt, smp}` (R80). -/
def packRecord (fmt : Bool) (cnt : Count) (smp : Byte) : Word := BitVec.ofBool fmt ++ cnt ++ smp

/-- `decode(w)` of R84: every 32-bit word decodes, by bit 31 alone (R87). -/
def decodeRecord (w : Word) : Instr :=
  if recFmt w then .recLong (recCnt w) (recSmp w) else .recShort (recCnt w) (recSmp w)

/-- Byte lane `k` of a word, lane 0 being bits 7:0 (R64). -/
def lane (w : Word) (k : Nat) : Byte := w.extractLsb' (8 * k) 8

/-- The word whose byte lanes are given, lane 0 first (R64). -/
def ofLanes (b0 b1 b2 b3 : Byte) : Word := b3 ++ b2 ++ b1 ++ b0

/-- Why a sequence of bytes is no encoding: CORE's formats are 0, 8 and 32 bits long (R87, R89, R190). -/
inductive DecodeError where
  /-- no format has this many bytes -/
  | noFormatOfLength (bytes : Nat)
deriving DecidableEq, Repr

/-- What decoding answers. -/
inductive Decoded where
  | ok (i : Instr)
  | rejected (e : DecodeError)
deriving DecidableEq, Repr

/-- The decoder: no bytes are READ (R190), one byte is a selector (R89), four bytes are a record word, its lowest lane first
(R64, R80). -/
def decode : List Byte → Decoded
  | [] => .ok .read
  | [sel] => .ok (decodeSelector sel)
  | [b0, b1, b2, b3] => .ok (decodeRecord (ofLanes b0 b1 b2 b3))
  | bytes => .rejected (.noFormatOfLength bytes.length)

/-- The selector of an operation, written from the patterns of R90; records and READ have none. -/
def encodeSelector : Instr → Option Byte
  | .reset st start tmo chg mrg full => some (packSelector true st start tmo chg mrg full)
  | .start stHigh tmo chg mrg full =>
    some (packSelector false (BitVec.ofBool stHigh ++ (0 : BitVec 1)) true tmo chg mrg full)
  | .idleHold tmo chg mrg full => some (packSelector false 0b00 false tmo chg mrg full)
  | .termHold tmo chg mrg full => some (packSelector false 0b10 false tmo chg mrg full)
  | .runFull start tmo chg mrg => some (packSelector false 0b01 start tmo chg mrg true)
  | .runTmoMerge start chg => some (packSelector false 0b01 start true chg true false)
  | .runTmoAppend start chg => some (packSelector false 0b01 start true chg false false)
  | .runChange start mrg => some (packSelector false 0b01 start false true mrg false)
  | .runWait start mrg => some (packSelector false 0b01 start false false mrg false)
  | .reservedSt11 start tmo chg mrg full => some (packSelector false 0b11 start tmo chg mrg full)
  | .recShort _ _ => none
  | .recLong _ _ => none
  | .read => none

/-- The record word of REC_SHORT and REC_LONG (R80); the other rows have none. -/
def encodeRecord : Instr → Option Word
  | .recShort cnt smp => some (packRecord false cnt smp)
  | .recLong cnt smp => some (packRecord true cnt smp)
  | .reset _ _ _ _ _ _ => none
  | .start _ _ _ _ _ => none
  | .idleHold _ _ _ _ => none
  | .termHold _ _ _ _ => none
  | .runFull _ _ _ _ => none
  | .runTmoMerge _ _ => none
  | .runTmoAppend _ _ => none
  | .runChange _ _ => none
  | .runWait _ _ => none
  | .reservedSt11 _ _ _ _ _ => none
  | .read => none

/-- The encoder: the bytes of an instruction in the decoder's order. -/
def encode (i : Instr) : List Byte :=
  match encodeSelector i with
  | some sel => [sel]
  | none =>
    match encodeRecord i with
    | some w => [lane w 0, lane w 1, lane w 2, lane w 3]
    | none => []

/-- The `count` lowest bytes of a number, lowest first. -/
def bytesOf : Nat → Nat → List Byte
  | 0, _ => []
  | count + 1, w => BitVec.ofNat 8 w :: bytesOf count (w / 256)

/-- The instruction that the decoder reads from the `nbits` bits of `w`, numbered as spec/opcode_table.json numbers them. -/
def decodeTableWord (nbits w : Nat) : Option Instr :=
  match decode (bytesOf (nbits / 8) w) with
  | .ok i => some i
  | .rejected _ => none

end Sys2Proof
end

