-- ==== Sys2Proof/Config.lean ====
section
/-! DEFINITION. What the spec leaves open: the parameters of 00_scope.md rule R8 and the draws `any()` of rule R14.
Every constant is opaque and has no body, so nothing can be proved of its value. -/

namespace Sys2Proof.Config

/-- `NMAX - 1`, open within the bounds of R8 (log 2). -/
opaque nmaxLessOne : Fin 65536

/-- `TICKS_PER_MS - 1`, open within the bounds of R8 (log 2). -/
opaque ticksPerMsLessOne : Fin 1073741824

/-- `BUF_BASE` (R68, D19b), open (log 2). -/
opaque bufBase : Nat

/-- The draw `any()` of the read port (R190), by the number of clock edges so far and the address read (log 5). -/
opaque anyRead : Nat → Nat → Word

/-- What an internal read finds in a buffer byte that nothing has written (I-BUFRESET), by the number of clock edges so far
and the byte's address (log 6). -/
opaque anyByte : Nat → Nat → Byte

/-- The inputs of a clock edge that the host has not scripted (R6), by the number of clock edges so far (log 3). -/
opaque freeRst : Nat → Bool
/-- See `freeRst`. -/
opaque freeStart : Nat → Bool
/-- See `freeRst`. -/
opaque freeTmaxMs : Nat → BitVec 32
/-- See `freeRst`. -/
opaque freeTickIn : Nat → Tick
/-- See `freeRst`. -/
opaque freeLevelIn : Nat → Byte

end Sys2Proof.Config
end

