-- ==== Sys2Proof/Machine/State.lean ====
section
/-! DEFINITION. The state of CORE (10_state.md rules R20 to R36), the parameters it takes (00_scope.md rule R8), the
environment that drives its ports (R6, R33), and the state after RESET (R40). -/

namespace Sys2Proof.Machine

/-- The session state `st`, a three-valued type as R21 asks (log 1). -/
inductive SessionState where
  | idle
  | running
  | terminated
deriving DecidableEq, Repr

/-- The trace buffer (R30, R60): the bytes that have been written, by byte offset from `BUF_BASE`, addresses strictly rising.
A byte that is not listed has no value (R40: the buffer is not reset; log 6, log 7). -/
abbrev Memory := List Host.Cell

/-- The parameters of R8 and R68, fixed for one machine: no step writes them (log 2). -/
structure Params where
  /-- `NMAX`, the capacity of the trace buffer in records. -/
  nmax : Nat
  /-- `TICKS_PER_MS`, reference-clock ticks per millisecond. -/
  ticksPerMs : Nat
  /-- `BUF_BASE`, the system address of word 0; no rule of CORE reads it. -/
  bufBase : Nat
deriving DecidableEq, Repr

/-- The bounds that R8 puts on the parameters. -/
abbrev Params.Valid (p : Params) : Prop :=
  1 ≤ p.nmax ∧ p.nmax ≤ 2 ^ 16 ∧ 1 ≤ p.ticksPerMs ∧ p.ticksPerMs ≤ 2 ^ 30

/-- The input ports that a rising edge of `clk` samples (R33). -/
structure Ports where
  rst : Bool
  start : Bool
  tmaxMs : BitVec 32
  tickIn : Tick
  levelIn : Byte
deriving DecidableEq, Repr

/-- One event of the host (log 3): the lines of the stimulus notation of R93, and the two things its reader does (log 10). -/
inductive HostEvent where
  /-- a rising edge of `clk` with these inputs (`RST`, `GO` and `S` of R93) -/
  | clock (p : Ports)
  /-- a rising edge at which a harness forces the state bits of the selector to `11` (R91, I-ST11; log 1) -/
  | clockForced (p : Ports)
  /-- a combinational read of the inspection port (`RD` of R93) -/
  | read (addr : Nat)
  /-- the reader decodes the word it has read (R84, R86) -/
  | decodeRecord
  /-- the reader begins a buffer anew, at `T_0 = 0` (R86) -/
  | rewind
deriving DecidableEq, Repr

/-- The interval that one record covers, `[first, last)` in ticks from the session's start reading, its level, and whether a
level change happens at its end (R86). -/
structure Span where
  first : Nat
  last : Nat
  level : Byte
  endsInChange : Bool
deriving DecidableEq, Repr

/-- The environment of CORE (R6): the wires it drives, the events still to come, and its reader. None of it is state of CORE. -/
structure Environment where
  /-- the inputs of the current clock edge (R33) -/
  ports : Ports
  /-- `rd_addr` (R33) -/
  rdAddr : Nat
  /-- the events still to come, first first (log 3) -/
  pending : List HostEvent
  /-- the clock edges so far; the counter at which free values are drawn (log 5) -/
  edges : Nat
  /-- the word the reader last took from `rd_data` (log 11) -/
  rdWord : Word
  /-- `T_i`, the tick at which the reader's next record begins (R86; log 10) -/
  time : Nat
  /-- the intervals the reader has decoded, oldest first (R86; log 10) -/
  history : List Span
deriving DecidableEq, Repr

/-- The state: the eleven elements of R20 under their own names, the parameters and the environment. -/
structure State where
  /-- session state (R21) -/
  st : SessionState
  /-- number of valid records (R22) -/
  n : Nat
  /-- last committed level (R23) -/
  lvl : Byte
  /-- tick reading at the record boundary (R24) -/
  bnd : Tick
  /-- remaining tick budget, two's complement (R25) -/
  bud : Budget
  /-- the session was started with `tmax_ms != 0` (R26) -/
  bounded : Bool
  /-- the last session ended because the buffer was full (R28) -/
  termFull : Bool
  /-- the last session ended because the budget was exhausted (R28) -/
  termBudget : Bool
  /-- waiting-phase indicator hook (R29) -/
  indWait : Bool
  /-- active-phase indicator hook (R29) -/
  indActive : Bool
  /-- the trace buffer (R30) -/
  buf : Memory
  /-- the parameters (R8) -/
  par : Params
  /-- the environment (R6) -/
  env : Environment
deriving DecidableEq, Repr

/-- Why a step can stop the machine. -/
inductive Fault where
  /-- Raised by a buffer access at an index outside `0..NMAX-1`, which the spec says does not exist (R68). Safe: no state
  reached from reset has such an index (R41), and the model stops where the spec says nothing (log 8). -/
  | bufferIndex
deriving DecidableEq, Repr

/-- Why a step can have no meaning. -/
inductive Refusal where
  /-- Raised by an arm of `exec` whose instruction has no meaning yet. Safe: the model stops. -/
  | notModelled (mnemonic : String)
  /-- Raised by RESERVED_ST11: a step from the forced state encoding `st = 11`, which no source gives a meaning (R91, I-ST11).
  Safe: the model stops. -/
  | reservedSessionState
  /-- Raised by REC_SHORT and REC_LONG with count 0: the reader must refuse to interpret such a word (R85, I-ZERO). Safe: the
  model stops. -/
  | invalidRecord
deriving DecidableEq, Repr

/-- The input wires before any event has driven them (log 12). -/
def Ports.undriven : Ports := ⟨false, false, 0, 0, 0⟩

/-- The environment before its first event (log 12). -/
def Environment.initial : Environment := ⟨Ports.undriven, 0, [], 0, 0, 0, []⟩

/-- The state after RESET of the machine with parameters `p`: every register as R40 gives it, nothing in the buffer. -/
def State.resetWith (p : Params) : State where
  st := .idle
  n := 0
  lvl := 0x00
  bnd := 0x000000
  bud := 0
  bounded := false
  termFull := false
  termBudget := false
  indWait := false
  indActive := false
  buf := []
  par := p
  env := Environment.initial

/-- The parameters of the machine, open within the bounds of R8 (log 2). -/
def Params.configured : Params :=
  ⟨Config.nmaxLessOne.val + 1, Config.ticksPerMsLessOne.val + 1, Config.bufBase⟩

/-- The machine right after reset, the initial state of a model (R40, R224). -/
def State.reset : State := State.resetWith Params.configured

end Sys2Proof.Machine
end

