-- ==== Sys2Proof/Machine/Operands.lean ====
section
/-! DEFINITION. The operands of CORE's operations: the elapsed ticks of the Timer Reader (40_timer.md), the sample of the Input
Sampler (41_sampler.md), reads of the trace buffer (20_memory.md) and the words of the Trace Encoder (30_encoding.md). -/

namespace Sys2Proof.Machine

/-- ELAPSED of two readings: `(bnd - tick_in) mod 2^24` (R100). -/
def elapsedBetween (bnd tickIn : Tick) : Tick := bnd - tickIn

/-- `E`, the ticks elapsed since the record boundary at this edge (R100). -/
def elapsed (s : State) : Tick := elapsedBetween s.bnd s.env.ports.tickIn

/-- ADVANCE's new boundary: `(bnd - UNIT) mod 2^24` (R102). -/
def advanced (bnd : Tick) : Tick := bnd - BitVec.ofNat 24 UNIT

/-- SNAPSHOT: `s = level_in`, with no filtering (R120, R122). -/
def sample (s : State) : Byte := s.env.ports.levelIn

/-- The byte at an address of the buffer, none where nothing has been written. -/
def Memory.read : Memory → Nat → Option Byte
  | [], _ => none
  | (a, b) :: rest, addr => if a = addr then some b else Memory.read rest addr

/-- The word at an index, none unless all four of its byte lanes have been written (R64). -/
def Memory.readWord (m : Memory) (i : Nat) : Option Word :=
  match Memory.read m (4 * i), Memory.read m (4 * i + 1), Memory.read m (4 * i + 2), Memory.read m (4 * i + 3) with
  | some b0, some b1, some b2, some b3 => some (ofLanes b0 b1 b2 b3)
  | _, _, _, _ => none

/-- What an internal read finds in one byte of the buffer: the byte written last, or a free value (I-BUFRESET; log 6). -/
def bufByte (s : State) (addr : Nat) : Byte :=
  (Memory.read s.buf addr).getD (Config.anyByte s.env.edges addr)

/-- `BufRead(i)` (R13, R60). -/
def bufRead (s : State) (i : Nat) : Word :=
  ofLanes (bufByte s (4 * i)) (bufByte s (4 * i + 1)) (bufByte s (4 * i + 2)) (bufByte s (4 * i + 3))

/-- `enc_short(t, s) = {1'b0, t[22:0], s[7:0]}` (R83). -/
def encShort (t : Tick) (smp : Byte) : Word := packRecord false (t.extractLsb' 0 23) smp

/-- `enc_long(u, s) = {1'b1, u[22:0], s[7:0]}` (R83). -/
def encLong (u : Count) (smp : Byte) : Word := packRecord true u smp

/-- The merged record `{w[31], w[30:8] + 1, w[7:0]}` (R134). -/
def bumpCount (w : Word) : Word := packRecord (recFmt w) (recCnt w + 1) (recSmp w)

/-- `dur(w)`: the ticks a record accounts for (R84). -/
def recordDuration (w : Word) : Nat :=
  if recFmt w then (recCnt w).toNat * UNIT else (recCnt w).toNat

/-- START's budget: the exact product `tmax_ms * TICKS_PER_MS` (R151). -/
def startBudget (s : State) : Budget := BitVec.ofNat 64 (s.env.ports.tmaxMs.toNat * s.par.ticksPerMs)

/-- `ceil(log2 x)` for `x` up to `2^17`, the widths of R9. -/
def ceilLog2 (x : Nat) : Nat := (List.range 18).findIdx (fun k => decide (x ≤ 2 ^ k))

/-- `NW`, the width of `n` and of the `count` output (R9). -/
def countWidth (p : Params) : Nat := ceilLog2 (p.nmax + 1)

/-- `AW`, the width of `rd_addr` (R9). -/
def addrWidth (p : Params) : Nat := max 1 (ceilLog2 p.nmax)

/-- What the `AW` wires of `rd_addr` carry of an index (R9, R33). -/
def portAddr (p : Params) (addr : Nat) : Nat := addr % 2 ^ addrWidth p

end Sys2Proof.Machine
end

