-- ==== Sys2Proof/Machine/Flags.lean ====
section
/-! DEFINITION. The conditions that every step computes and never stores (30_encoding.md rule R88), the step selector (R89),
and the priority order of 43_session.md rule R150. -/

namespace Sys2Proof.Machine

/-- TMO_TEST as CORE implements it: `E >= UNIT` (R101). -/
def tmoOf (bnd tickIn : Tick) : Bool := decide (UNIT ≤ (elapsedBetween bnd tickIn).toNat)

/-- TMO_TEST in the source's form: both readings at an 8-bit offset in 32 bits, the difference above `0x7FFFFFFF` (R101). -/
def tmoSourceForm (bnd tickIn : Tick) : Bool :=
  decide (0x7FFFFFFF < (((bnd.setWidth 32) <<< 8) - ((tickIn.setWidth 32) <<< 8)).toNat)

/-- `tmo`: a full unit has elapsed since the record boundary (R88, R101). -/
def tmo (s : State) : Bool := tmoOf s.bnd s.env.ports.tickIn

/-- CHANGE_DETECT: the sample differs from the last committed level (R121). -/
def chg (s : State) : Bool := sample s != s.lvl

/-- `full`: the buffer holds `NMAX` records (R88, R135). -/
def full (s : State) : Bool := s.n == s.par.nmax

/-- Whether a word is a long record of this sample whose count is not saturated (R132). -/
def mergeable (w : Word) (lvl : Byte) : Bool := recFmt w && recSmp w == lvl && (recCnt w).toNat != CMAX

/-- MERGE_TEST: the last record can take one more unit; with no record nothing is read (R132). -/
def mrg (s : State) : Bool := decide (0 < s.n) && mergeable (bufRead s (s.n - 1)) s.lvl

/-- The encoding of `st` (R21). -/
def stBits : SessionState → BitVec 2
  | .idle => 0b00
  | .running => 0b01
  | .terminated => 0b10

/-- The step selector at this edge (R89). -/
def selector (s : State) : Byte :=
  packSelector s.env.ports.rst (stBits s.st) s.env.ports.start (tmo s) (chg s) (mrg s) (full s)

/-- The step selector at an edge where a harness forces `st = 11` (R91, I-ST11; log 1). -/
def forcedSelector (s : State) : Byte :=
  packSelector s.env.ports.rst 0b11 s.env.ports.start (tmo s) (chg s) (mrg s) (full s)

/-- The operation by the priority order of R150 and R203. -/
def priorityOperation (s : State) : Operation :=
  if s.env.ports.rst then .reset
  else if s.st = .idle ∧ s.env.ports.start then .start
  else if s.st = .terminated ∧ s.env.ports.start then .start
  else if s.st = .idle then .idleHold
  else if s.st = .terminated then .termHold
  else if full s then .runFull
  else if tmo s ∧ mrg s then .runTmoMerge
  else if tmo s then .runTmoAppend
  else if chg s then .runChange
  else .runWait

end Sys2Proof.Machine
end

