-- ==== Sys2Proof/Machine/Ops.lean ====
section
/-! DEFINITION. The named operations over the registers and the trace buffer: memory writes (20_memory.md), the register writes
of the session rules (43_session.md), the encoder operations (42_encoder.md), TERMINATION_TEST (R158) and RESET (R220). CORE
has no exception entry and no return from one (R204, R205). -/

namespace Sys2Proof.Machine

/-- The canonical form: addresses strictly rising. An unlisted byte has no value, so no entry can equal it (log 6). -/
def Memory.wf : Memory → Bool
  | [] => true
  | [_] => true
  | (a, _) :: (a', b') :: rest => decide (a < a') && Memory.wf ((a', b') :: rest)

/-- A write of one byte, at its place in the rising order. -/
def Memory.write : Memory → Nat → Byte → Memory
  | [], addr, v => [(addr, v)]
  | (a, b) :: rest, addr, v =>
    if addr < a then (addr, v) :: (a, b) :: rest
    else if addr = a then (addr, v) :: rest
    else (a, b) :: Memory.write rest addr v

/-- A write of one whole word, its four byte lanes at `4*i .. 4*i+3` (R64, R65). -/
def Memory.writeWord (m : Memory) (i : Nat) (w : Word) : Memory :=
  Memory.write (Memory.write (Memory.write (Memory.write m (4 * i) (lane w 0)) (4 * i + 1) (lane w 1)) (4 * i + 2) (lane w 2))
    (4 * i + 3) (lane w 3)

/-- `BufWrite(i, w)` (R13, R60); none at an index that does not exist (R68; log 8). -/
def bufWrite (s : State) (i : Nat) (w : Word) : Option State :=
  if i < s.par.nmax then some { s with buf := Memory.writeWord s.buf i w } else none

/-- The two indicator hooks, which every step writes (R29, R165). -/
def setIndicators (s : State) (wait active : Bool) : State := { s with indWait := wait, indActive := active }

/-- REBASE: the record boundary becomes this edge's reading (R103). -/
def rebase (s : State) : State := { s with bnd := s.env.ports.tickIn }

/-- COMMIT_LEVEL: the committed level becomes this edge's sample (R123). -/
def commitLevel (s : State) : State := { s with lvl := sample s }

/-- ADVANCE: the record boundary moves forward by exactly one unit (R102). -/
def advance (s : State) : State := { s with bnd := advanced s.bnd }

/-- RESET's writes: every register, no buffer word (R220). -/
def resetRegisters (s : State) : State :=
  { s with
    st := .idle, n := 0, lvl := 0x00, bnd := 0x000000, bud := 0, bounded := false, termFull := false, termBudget := false,
    indWait := false, indActive := false }

/-- START's writes: the registers of a new session, no buffer word (R151, R63). -/
def beginSession (s : State) : State :=
  { s with
    n := 0, lvl := sample s, bnd := s.env.ports.tickIn, bud := startBudget s, bounded := s.env.ports.tmaxMs != 0,
    termFull := false, termBudget := false, indWait := true, indActive := false, st := .running }

/-- The two stop conditions of R158 on a step's results `n'` and `bud'`. -/
def stopFull (s : State) (n' : Nat) : Bool := n' == s.par.nmax
/-- See `stopFull`; the budget must go negative, 0 does not stop. -/
def stopBudget (s : State) (bud' : Budget) : Bool := s.bounded && decide (bud'.toInt < 0)

/-- TERMINATION_TEST on a step's results `n'` and `bud'` (R158). -/
def terminationTest (s : State) (n' : Nat) (bud' : Budget) : State :=
  if stopFull s n' || stopBudget s bud' then
    { s with
      n := n', bud := bud', st := .terminated, termFull := stopFull s n', termBudget := stopBudget s bud', indWait := false,
      indActive := false }
  else { s with n := n', bud := bud', indWait := false, indActive := true }

/-- The result of an encoder operation (R130). -/
inductive EncoderResult where
  /-- a record was appended: OK of R131 and R133 -/
  | appended (s : State)
  /-- the last record was merged into: MERGED of R134 -/
  | merged (s : State)
  /-- the buffer is full: REFUSED of R135 -/
  | refused
  /-- the word written has no place in the buffer (log 8) -/
  | noSuchIndex
deriving DecidableEq, Repr

/-- An append of one record at index `n`, capacity tested first (R62, R130, R135). -/
def appendRecord (s : State) (w : Word) : EncoderResult :=
  if full s then .refused
  else
    match bufWrite s s.n w with
    | none => .noSuchIndex
    | some s' => .appended { s' with n := s.n + 1 }

/-- RECORD_CHANGE: a short record of `t` ticks at the committed level (R131). -/
def recordChange (s : State) (t : Tick) : EncoderResult := appendRecord s (encShort t s.lvl)

/-- RECORD_TIMEOUT, the append branch: a long record of one unit at the committed level (R133). -/
def recordTimeoutAppend (s : State) : EncoderResult := appendRecord s (encLong 1 s.lvl)

/-- RECORD_TIMEOUT, the merge branch: one more unit in the last record, refused on a full buffer (R134, R135, C1). -/
def recordTimeoutMerge (s : State) : EncoderResult :=
  if full s then .refused
  else
    match s.n with
    | 0 => .noSuchIndex
    | last + 1 =>
      match bufWrite s last (bumpCount (bufRead s last)) with
      | none => .noSuchIndex
      | some s' => .merged s'

/-- The end of a commit step that consumed `ticks` (R160): the boundary writes `upd`, then TERMINATION_TEST on the new count
and budget. A refused commit writes no buffer word and no counter and the session stops, as in R159 (log 9). -/
def finishCommit (s : State) (r : EncoderResult) (ticks : Budget) (upd : State → State) :
    Host.Outcome State Fault Refusal :=
  match r with
  | .appended s' => .next (terminationTest (upd s') s'.n (s.bud - ticks))
  | .merged s' => .next (terminationTest (upd s') s'.n (s.bud - ticks))
  | .refused => .next (terminationTest s s.n s.bud)
  | .noSuchIndex => .fault .bufferIndex

/-- The budget that a whole interval consumes (R160). -/
def intervalTicks (t : Tick) : Budget := t.setWidth 64

/-- The budget that one unit consumes (R160). -/
def unitTicks : Budget := BitVec.ofNat 64 UNIT

end Sys2Proof.Machine
end

