-- ==== Sys2Proof/Machine/Inspect.lean ====
section
/-! DEFINITION. The output ports (10_state.md rule R36), the inspection read port and the meaning of READ (44_inspect.md), and
the integrator's bus view of the buffer (20_memory.md rule R64). -/

namespace Sys2Proof.Machine

/-- The output ports, but for `rd_data` (R36). -/
structure Outputs where
  busy : Bool
  done : Bool
  count : Nat
  termFull : Bool
  termBudget : Bool
  indWait : Bool
  indActive : Bool
deriving DecidableEq, Repr

/-- The Moore outputs (R36). -/
def outputs (s : State) : Outputs where
  busy := decide (s.st = .running)
  done := decide (s.st = .terminated)
  count := s.n
  termFull := s.termFull
  termBudget := s.termBudget
  indWait := s.indWait
  indActive := s.indActive

/-- `rd_data` for an address on the port (R190); `any()` is the free value of this clock edge and this address, so that repeated
reads with no step between them return the same word (R67; log 5). -/
def rdData (s : State) (addr : Nat) : Word :=
  if s.st = .running then Config.anyRead s.env.edges addr
  else if s.par.nmax ≤ addr then 0x00000000
  else if addr < s.n then bufRead s addr
  else Config.anyRead s.env.edges addr

/-- READ: the reader takes `rd_data` at the address it drives; no state of CORE changes (R190, R67). -/
def execRead (s : State) : Host.Outcome State Fault Refusal :=
  .next { s with env := { s.env with rdWord := rdData s s.env.rdAddr } }

/-- The byte that a debugger reads at a system address when an integrator maps the buffer onto a byte bus: lane `k` of word `i`
stands at `BUF_BASE + 4*i + k` (R64, R68); none outside the buffer. -/
def busByte (s : State) (addr : Nat) : Option Byte :=
  if s.par.bufBase ≤ addr ∧ addr < s.par.bufBase + 4 * s.par.nmax then
    some (lane (rdData s ((addr - s.par.bufBase) / 4)) ((addr - s.par.bufBase) % 4))
  else none

end Sys2Proof.Machine
end

