-- ==== Sys2Proof/WellFormed.lean ====
section
/-! DEFINITION. Which instructions are well formed: the reserved encodings of 30_encoding.md rules R85 and R91 are not. -/

namespace Sys2Proof

/-- `valid(w) = (w[30:8] != 0)`, the decoder's verdict on a record (R85). -/
def countValid (cnt : Count) : Bool := cnt != 0

/-- A record word with count 0 is invalid (R85) and the selector values with `st = 11` are reserved (R91); every other
encoding is well formed, since the selector bits that a row ignores are not reserved (R92). -/
def wellFormed : Instr → Bool
  | .recShort cnt _ => countValid cnt
  | .recLong cnt _ => countValid cnt
  | .reservedSt11 _ _ _ _ _ => false
  | .reset _ _ _ _ _ _ => true
  | .start _ _ _ _ _ => true
  | .idleHold _ _ _ _ => true
  | .termHold _ _ _ _ => true
  | .runFull _ _ _ _ => true
  | .runTmoMerge _ _ => true
  | .runTmoAppend _ _ => true
  | .runChange _ _ => true
  | .runWait _ _ => true
  | .read => true

end Sys2Proof
end

