-- ==== Sys2Proof/Machine/Record.lean ====
section
/-! DEFINITION. The meanings of REC_SHORT and REC_LONG: what the reader makes of a record word (30_encoding.md rules R84 to R86).
The decoder is the reader's function and no part of CORE (R84; log 10). -/

namespace Sys2Proof.Machine

/-- The reader enters one record: its interval begins where the one before it ended (R86). -/
def enterSpan (s : State) (ticks : Nat) (level : Byte) (endsInChange : Bool) : State :=
  { s with
    env := { s.env with
      time := s.env.time + ticks,
      history := s.env.history ++ [⟨s.env.time, s.env.time + ticks, level, endsInChange⟩] } }

/-- REC_SHORT: `cnt` ticks at level `smp`, with a level change at the end (R81, R84, R86); count 0 is refused (R85). -/
def execRecShort (cnt : Count) (smp : Byte) (s : State) : Host.Outcome State Fault Refusal :=
  if countValid cnt then .next (enterSpan s cnt.toNat smp true) else .refused .invalidRecord

/-- REC_LONG: `cnt` units of `2^23` ticks at level `smp`, with no level change at the end (R82, R84, R86); count 0 is refused
(R85). -/
def execRecLong (cnt : Count) (smp : Byte) (s : State) : Host.Outcome State Fault Refusal :=
  if countValid cnt then .next (enterSpan s (cnt.toNat * UNIT) smp false) else .refused .invalidRecord

/-- The intervals of a list of record words read from tick `t` on: `T_{i+1} = T_i + dur(buf[i])` (R86). -/
def spansFrom : Nat → List Word → List Span
  | _, [] => []
  | t, w :: rest => ⟨t, t + recordDuration w, recSmp w, !recFmt w⟩ :: spansFrom (t + recordDuration w) rest

/-- The run-length merge of a list of samples. -/
def runLengthMerge : List Byte → List Byte
  | [] => []
  | [b] => [b]
  | b :: b' :: rest => if b = b' then runLengthMerge (b' :: rest) else b :: runLengthMerge (b' :: rest)

/-- The level sequence of a session: the run-length merge of its records' samples (R86). -/
def levelSequence (ws : List Word) : List Byte := runLengthMerge (ws.map recSmp)

end Sys2Proof.Machine
end

