-- ==== Sys2Proof/Machine/Session.lean ====
section
/-! DEFINITION. The meanings of the session's operations (43_session.md), one definition per row of R90. -/

namespace Sys2Proof.Machine

/-- START begins a session (R151). -/
def execStart (s : State) : Host.Outcome State Fault Refusal := .next (beginSession s)

/-- IDLE_HOLD: both indicators fall, nothing else changes (R152). -/
def execIdleHold (s : State) : Host.Outcome State Fault Refusal := .next (setIndicators s false false)

/-- TERM_HOLD: both indicators fall, nothing else changes (R161). -/
def execTermHold (s : State) : Host.Outcome State Fault Refusal := .next (setIndicators s false false)

/-- RUN_FULL: TERMINATION_TEST on the state's own count and budget, with no write (R159). -/
def execRunFull (s : State) : Host.Outcome State Fault Refusal := .next (terminationTest s s.n s.bud)

/-- RUN_TMO_MERGE: one unit into the last long record, ADVANCE, one unit off the budget (R157). -/
def execRunTmoMerge (s : State) : Host.Outcome State Fault Refusal :=
  finishCommit s (recordTimeoutMerge s) unitTicks advance

/-- RUN_TMO_APPEND: a new long record, ADVANCE, one unit off the budget (R156). -/
def execRunTmoAppend (s : State) : Host.Outcome State Fault Refusal :=
  finishCommit s (recordTimeoutAppend s) unitTicks advance

/-- RUN_CHANGE: the interval as a short record, COMMIT_LEVEL, REBASE, the interval off the budget (R155). -/
def execRunChange (s : State) : Host.Outcome State Fault Refusal :=
  finishCommit s (recordChange s (elapsed s)) (intervalTicks (elapsed s)) (fun t => rebase (commitLevel t))

/-- RUN_WAIT: the waiting indicator rises, nothing else changes (R154). -/
def execRunWait (s : State) : Host.Outcome State Fault Refusal := .next (setIndicators s true false)

/-- RESERVED_ST11: a step from `st = 11` is refused, because no source gives it a meaning (R91). -/
def execReservedSt11 (_s : State) : Host.Outcome State Fault Refusal := .refused .reservedSessionState

end Sys2Proof.Machine
end

