-- ==== Sys2Proof/Machine/Dispatch.lean ====
section
/-! DEFINITION. One arm per instruction, each a direct call of its meaning. -/

namespace Sys2Proof.Machine

def exec (i : Instr) (s : State) : Host.Outcome State Fault Refusal :=
  match i with
  | .reset _ _ _ _ _ _ => Sys2Proof.Machine.execReset s
  | .start _ _ _ _ _ => Sys2Proof.Machine.execStart s
  | .idleHold _ _ _ _ => Sys2Proof.Machine.execIdleHold s
  | .termHold _ _ _ _ => Sys2Proof.Machine.execTermHold s
  | .runFull _ _ _ _ => Sys2Proof.Machine.execRunFull s
  | .runTmoMerge _ _ => Sys2Proof.Machine.execRunTmoMerge s
  | .runTmoAppend _ _ => Sys2Proof.Machine.execRunTmoAppend s
  | .runChange _ _ => Sys2Proof.Machine.execRunChange s
  | .runWait _ _ => Sys2Proof.Machine.execRunWait s
  | .reservedSt11 _ _ _ _ _ => Sys2Proof.Machine.execReservedSt11 s
  | .recShort cnt smp => Sys2Proof.Machine.execRecShort cnt smp s
  | .recLong cnt smp => Sys2Proof.Machine.execRecLong cnt smp s
  | .read => Sys2Proof.Machine.execRead s

end Sys2Proof.Machine
end

