-- ==== Sys2Proof/Machine/Fetch.lean ====
section
/-! DEFINITION. Which operation the next event of the host selects (30_encoding.md rules R89 to R91), and the preparation of a
state in which the next event selects a given one (log 4). CORE fetches no instructions (20_memory.md rule R72). -/

namespace Sys2Proof.Machine

/-- What an event asks for: an operation at the state whose wires the event has driven, or no operation at all. -/
inductive Fetched where
  | run (i : Instr) (s : State)
  | quiet (s : State)
deriving DecidableEq, Repr

/-- The wires and the edge counter at a rising edge with inputs `p`, the events `rest` still to come (R6, R33). -/
def driveEdge (s : State) (p : Ports) (rest : List HostEvent) : State :=
  { s with env := { s.env with ports := p, pending := rest, edges := s.env.edges + 1 } }

/-- The address wires of a read, cut to their width (R9, R190). -/
def driveRead (s : State) (addr : Nat) (rest : List HostEvent) : State :=
  { s with env := { s.env with rdAddr := portAddr s.par addr, pending := rest } }

/-- An event that drives no wire of CORE. -/
def dropEvent (s : State) (rest : List HostEvent) : State := { s with env := { s.env with pending := rest } }

/-- The reader begins a buffer anew: `T_0 = 0` (R86). -/
def rewindReader (s : State) (rest : List HostEvent) : State :=
  { s with env := { s.env with pending := rest, time := 0, history := [] } }

/-- The inputs of an edge that the host has not scripted: free values (R6; log 3). -/
def freePorts (edges : Nat) : Ports :=
  ⟨Config.freeRst edges, Config.freeStart edges, Config.freeTmaxMs edges, Config.freeTickIn edges, Config.freeLevelIn edges⟩

/-- The operation that an edge selects (R90, R150). -/
def fetchEdge (s : State) : Fetched := .run (decodeSelector (selector s)) s

/-- The operation that an edge with the forced encoding `st = 11` selects (R91; log 1). -/
def fetchForcedEdge (s : State) : Fetched := .run (decodeSelector (forcedSelector s)) s

/-- What the next event of the host asks for. With no event scripted the clock goes on with free inputs: CORE takes a step at
every clock edge (R209). -/
def fetch (s : State) : Fetched :=
  match s.env.pending with
  | [] => fetchEdge (driveEdge s (freePorts s.env.edges) [])
  | .clock p :: rest => fetchEdge (driveEdge s p rest)
  | .clockForced p :: rest => fetchForcedEdge (driveEdge s p rest)
  | .read addr :: rest => .run .read (driveRead s addr rest)
  | .decodeRecord :: rest => .run (decodeRecord s.env.rdWord) (dropEvent s rest)
  | .rewind :: rest => .quiet (rewindReader s rest)

/-- The event put before those still to come. -/
def placeEvent (s : State) (e : HostEvent) : State := { s with env := { s.env with pending := e :: s.env.pending } }

/-- The inputs at which the `rst`, `start`, `tmo` and `chg` bits of the next selector are those of `sel`. -/
def portsFor (s : State) (sel : Byte) : Ports where
  rst := selRst sel
  start := selStart sel
  tmaxMs := s.env.ports.tmaxMs
  tickIn := if selTmo sel then advanced s.bnd else s.bnd
  levelIn := if selChg sel then s.lvl ^^^ 1 else s.lvl

/-- The session state whose bits are those of a selector; `11` stands for no session state (R91). -/
def sessionFor (s : State) (sel : Byte) : SessionState :=
  if selSt sel = 0b00 then .idle else if selSt sel = 0b01 then .running else if selSt sel = 0b10 then .terminated else s.st

/-- The state whose buffer makes the `mrg` and `full` bits of the next selector those of `sel`. Where one of them is 1 the
buffer must hold a record, and `mrg` without `full` needs room for two, so the capacity becomes 2 (log 4). -/
def bufferFor (s : State) (sel : Byte) : State :=
  match selMrg sel, selFull sel with
  | false, false => { s with n := 0 }
  | false, true =>
    { s with n := 2, buf := Memory.writeWord s.buf 1 (encShort 1 s.lvl), par := { s.par with nmax := 2 } }
  | true, false =>
    { s with n := 1, buf := Memory.writeWord s.buf 0 (encLong 1 s.lvl), par := { s.par with nmax := 2 } }
  | true, true =>
    { s with n := 2, buf := Memory.writeWord s.buf 1 (encLong 1 s.lvl), par := { s.par with nmax := 2 } }

/-- The state whose next event is a clock edge with the selector `sel` (log 4). -/
def placeSelector (s : State) (sel : Byte) : State :=
  let s' := { bufferFor s sel with st := sessionFor s sel }
  placeEvent s' (if selSt sel = 0b11 then .clockForced (portsFor s sel) else .clock (portsFor s sel))

/-- The state whose next event decodes the record word `w` (log 4). -/
def placeRecord (s : State) (w : Word) : State :=
  placeEvent { s with env := { s.env with rdWord := w } } .decodeRecord

end Sys2Proof.Machine
end

