-- ==== Sys2Proof/Machine/Stimulus.lean ====
section
/-! DEFINITION. The stimulus notation of 30_encoding.md rules R93 and R94 as events of the host. -/

namespace Sys2Proof.Machine

/-- `RST`: one step with `rst = 1`; the other inputs do not matter (R93). -/
def stimRst : HostEvent := .clock ⟨true, false, 0, 0, 0⟩

/-- `GO tmax, tick, level` (R93). -/
def stimGo (tmax : BitVec 32) (tick : Tick) (level : Byte) : HostEvent := .clock ⟨false, true, tmax, tick, level⟩

/-- `S tick, level` (R93). -/
def stimStep (tick : Tick) (level : Byte) : HostEvent := .clock ⟨false, false, 0, tick, level⟩

/-- `RD i` (R93). -/
def stimRead (i : Nat) : HostEvent := .read i

/-- `SEQ k, tick0, d, level`: `k` polls at spacing `d` with a constant level (R94). -/
def stimSeq : Nat → Tick → Tick → Byte → List HostEvent
  | 0, _, _, _ => []
  | k + 1, tick, d, level => stimStep tick level :: stimSeq k (tick - d) d level

/-- `PULSE_GO tmax, tick, level`: `GO`, with the host's promise that the next step has `start = 0` (R94, R235). -/
def stimPulseGo (tmax : BitVec 32) (tick : Tick) (level : Byte) : HostEvent := stimGo tmax tick level

/-- The reader's program for a finished session of `count` records: rewind, then read and decode each record in order (R86). -/
def stimDecodeFrom : Nat → Nat → List HostEvent
  | _, 0 => []
  | i, count + 1 => .read i :: .decodeRecord :: stimDecodeFrom (i + 1) count

/-- See `stimDecodeFrom`. -/
def stimDecodeBuffer (count : Nat) : List HostEvent := .rewind :: stimDecodeFrom 0 count

end Sys2Proof.Machine
end

