-- ==== Sys2Proof/Machine/Step.lean ====
section
/-! DEFINITION. One step: the next event of the host and the operation it selects (43_session.md rule R150). -/

namespace Sys2Proof.Machine

/-- One step of the machine (R6, R150; log 3). -/
def step (s : State) : Host.Outcome State Fault Refusal :=
  match fetch s with
  | .run i s' => exec i s'
  | .quiet s' => .next s'

/-- The state whose next step runs the instruction with the given bits: an 8-bit word is a step selector, a 32-bit word a record
word, and no bits are READ (log 4). -/
def State.withFetchWord (s : State) (nbits w : Nat) : State :=
  match nbits with
  | 0 => placeEvent s (.read s.env.rdAddr)
  | 8 => placeSelector s (BitVec.ofNat 8 w)
  | 32 => placeRecord s (BitVec.ofNat 32 w)
  | _ => s

end Sys2Proof.Machine
end

