-- ==== Sys2Proof/Safety.lean ====
section
/-! DEFINITION. What claims about CORE are stated in: the invariants of 10_state.md rules R41 to R44, the host's duties of
70_reset_and_hazards.md rules R230 and R231, the observation of 43_session.md rule R168, and the relations between two runs. -/

namespace Sys2Proof.Machine

/-- `buf[0..n)` (R22). -/
def records (s : State) : List Word := (List.range s.n).map (bufRead s)

/-- The ticks that `buf[0..n)` accounts for (R84). -/
def totalDuration (s : State) : Nat := ((records s).map recordDuration).sum

/-- The observation of a run that ends: `(n, buf[0..n), term_full, term_budget)` (R168). -/
def observation (s : State) : Nat × List Word × Bool × Bool := (s.n, records s, s.termFull, s.termBudget)

/-- The invariants of the trace buffer: R22, R41, R42, the address map of R68, the canonical form of the memory, and the
neighbours of R86. -/
structure TraceInv (s : State) : Prop where
  /-- the parameters are within the bounds of R8 -/
  params : s.par.Valid
  /-- the memory is in its canonical form -/
  canonical : Memory.wf s.buf = true
  /-- every stored byte lies in the buffer (R68) -/
  inBuffer : ∀ c ∈ s.buf, c.1 < 4 * s.par.nmax
  /-- `0 <= n <= NMAX` (R41) -/
  count : s.n ≤ s.par.nmax
  /-- a running session has room (R41) -/
  room : s.st = .running → s.n < s.par.nmax
  /-- IDLE holds no records (R40) -/
  idle : s.st = .idle → s.n = 0
  /-- every record has been written, and a long one counts at least one unit (R42) -/
  written : ∀ i < s.n, ∃ w, Memory.readWord s.buf i = some w ∧ (recFmt w = true → recCnt w ≠ 0)
  /-- the last record has the committed level exactly when it is long (R42, R139) -/
  last : ∀ w, 0 < s.n → Memory.readWord s.buf (s.n - 1) = some w → (recSmp w = s.lvl ↔ recFmt w = true)
  /-- of two records in a row, the first has the second's sample exactly when it is long (R86) -/
  neighbours : ∀ i w w', i + 1 < s.n → Memory.readWord s.buf i = some w → Memory.readWord s.buf (i + 1) = some w' →
    (recSmp w = recSmp w' ↔ recFmt w = true)
  /-- of two long records in a row, the first is saturated (R86) -/
  saturated : ∀ i w w', i + 1 < s.n → Memory.readWord s.buf i = some w → Memory.readWord s.buf (i + 1) = some w' →
    recFmt w = true → recFmt w' = true → (recCnt w).toNat = CMAX

/-- The status flags say why the last session ended (R28, R158), a running bounded session has budget left (R173), and the
indicators rise only in a running session and never together (R165). -/
structure StatusInv (s : State) : Prop where
  /-- the flags of a finished session (R28) -/
  finished : s.st = .terminated → s.termFull = (s.n == s.par.nmax) ∧ s.termBudget = (s.bounded && decide (s.bud.toInt < 0))
  /-- a finished session met a stop condition (R158) -/
  stopped : s.st = .terminated → s.termFull = true ∨ s.termBudget = true
  /-- no flag stands outside TERMINATED (R28) -/
  clear : s.st ≠ .terminated → s.termFull = false ∧ s.termBudget = false
  /-- a running bounded session has not gone negative (R173) -/
  left : s.st = .running → s.bounded = true → 0 ≤ s.bud.toInt
  /-- the indicators are down outside a session (R165) -/
  down : s.st ≠ .running → s.indWait = false ∧ s.indActive = false
  /-- the indicators never rise together (R165) -/
  apart : ¬(s.indWait = true ∧ s.indActive = true)

/-- The ledger of a session that began with budget `budget` at reading `start`: the budget left is the start value less the
duration of the records (R44), and the boundary lies that many ticks after the start reading (R86). -/
structure Ledger (budget : Int) (start : Tick) (s : State) : Prop where
  /-- the start value of a bounded session is positive and below `2^62` (R27) -/
  boundedStart : s.bounded = true → 0 < budget ∧ budget < 2 ^ 62
  /-- the start value of an unbounded session is 0 (R44) -/
  unboundedStart : s.bounded = false → budget = 0
  /-- `bud` is the start value less the duration of the records (R44) -/
  balance : s.bud.toInt = budget - totalDuration s
  /-- `bnd` is the start reading less the duration of the records, modulo `2^24` (R34, R86) -/
  boundary : s.bnd = start - BitVec.ofNat 24 (totalDuration s)

/-- The spacing that R230 and R231 ask of two consecutive readings. -/
def spacedBy (previous current : Tick) : Prop :=
  1 ≤ (elapsedBetween previous current).toNat ∧ (elapsedBetween previous current).toNat ≤ 2 ^ 22

/-- Inputs of consecutive edges that keep the host's duties of R230 and R231 and never reset, the reading before them given. -/
def keepsDuties : Tick → List Ports → Prop
  | _, [] => True
  | previous, p :: ps => p.rst = false ∧ spacedBy previous p.tickIn ∧ keepsDuties p.tickIn ps

/-- Inputs of consecutive edges that never reset and never change the level `lvl` on an edge without a timeout: each sees a full
unit elapsed since the boundary `bnd` before it or finds the level at `lvl`, and the last sees a full unit (R138). -/
def timeoutsAndWaits (lvl : Byte) : Tick → List Ports → Prop
  | _, [] => True
  | bnd, p :: ps => p.rst = false ∧
      if tmoOf bnd p.tickIn then timeoutsAndWaits lvl (advanced bnd) ps
      else p.levelIn = lvl ∧ ps ≠ [] ∧ timeoutsAndWaits lvl bnd ps

/-- How many of those edges are timeouts, each of which moves the boundary forward by one unit (R102, R138). -/
def timeoutCount : Tick → List Ports → Nat
  | _, [] => 0
  | bnd, p :: ps => if tmoOf bnd p.tickIn then timeoutCount (advanced bnd) ps + 1 else timeoutCount bnd ps

/-- The index an operation stores a word at, if it stores one: `n` for an append and `n - 1` for a merge (R62). -/
def storedIndex (op : Option Operation) (s : State) : Option Nat :=
  match op with
  | some .runChange => some s.n
  | some .runTmoAppend => some s.n
  | some .runTmoMerge => some (s.n - 1)
  | some .reset => none
  | some .start => none
  | some .idleHold => none
  | some .termHold => none
  | some .runFull => none
  | some .runWait => none
  | some .reserved => none
  | none => none

/-- Two states that the rules cannot tell apart: equal in every register, parameter and input, with the same records in
`buf[0..n)`; the words beyond may differ (R175). -/
structure SameRecords (s t : State) : Prop where
  /-- all but the buffer is equal -/
  registers : t = { s with buf := t.buf }
  /-- the records are there and equal -/
  records : ∀ i < s.n, ∃ w, Memory.readWord s.buf i = some w ∧ Memory.readWord t.buf i = some w

/-- Inputs with the reading offset by `c` (R105). -/
def shiftPorts (c : Tick) (p : Ports) : Ports := { p with tickIn := p.tickIn + c }

/-- An event with its reading offset by `c` (R105). -/
def shiftEvent (c : Tick) : HostEvent → HostEvent
  | .clock p => .clock (shiftPorts c p)
  | .clockForced p => .clockForced (shiftPorts c p)
  | .read addr => .read addr
  | .decodeRecord => .decodeRecord
  | .rewind => .rewind

/-- A state whose boundary and every reading, past and to come, is offset by `c` (R105). -/
def shiftReadings (c : Tick) (s : State) : State :=
  { s with
    bnd := s.bnd + c
    env := { s.env with ports := shiftPorts c s.env.ports, pending := s.env.pending.map (shiftEvent c) } }

/-- The edge at this state selects an operation (R90). -/
def selects (s : State) (op : Operation) : Prop := (decodeSelector (selector s)).operation = some op

/-- Whether a step kind commits a record (R15). -/
def isCommit : Operation → Bool
  | .runChange => true
  | .runTmoAppend => true
  | .runTmoMerge => true
  | .reset => false
  | .start => false
  | .idleHold => false
  | .termHold => false
  | .runFull => false
  | .runWait => false
  | .reserved => false

/-- `k` steps of the machine. -/
def runSteps (k : Nat) (s : State) : Host.Outcome State Fault Refusal := Host.Core.run Sys2Proof.core k s

end Sys2Proof.Machine
end

