-- ==== Sys2Proof/Certificates/Slice0/Obligations.lean ====
section
/-! DEFINITION. The statements about CORE, each from the rules of spec/ that its docstring names. -/

open Sys2Proof Sys2Proof.Machine

/-! ### Encodings -/

/-- R80 to R91: decoding the encoding of any instruction gives it back, with every field at every value. -/
def Obligations.DecodeOfEncodeIsIdentity : Prop :=
  ∀ i : Instr, decode (encode i) = .ok i

/-- R80, R84, R89, R90: encoding what was decoded gives the bytes back. By R90 and R92 several selector values pick one
operation; that no two byte strings are one `Instr`, and no bit is dropped, is the model's choice: an instruction carries the
bits its row ignores (log 20, DESIGN CHOICE), and the length of a byte string tells the formats apart (log 19, DEDUCED). -/
def Obligations.EncodeOfDecodeIsIdentity : Prop :=
  ∀ (bytes : List Byte) (i : Instr), decode bytes = .ok i → encode i = bytes

/-- Twelve words written out from R80, R89 and R90 decode to the rows they stand for. The last clause, that READ is the empty
byte string, is written out from no encoding of the spec: it is the model's choice (log 19, DEDUCED: a format of 0 bits). That
the length of a byte string tells selectors from record words is log 19 too. -/
def Obligations.SpecWordsDecode : Prop :=
  decode [0x80] = .ok (.reset 0 false false false false false) ∧
  decode [0x1C] = .ok (.start false true true false false) ∧
  decode [0x0C] = .ok (.idleHold true true false false) ∧
  decode [0x41] = .ok (.termHold false false false true) ∧
  decode [0x25] = .ok (.runFull false false true false) ∧
  decode [0x2E] = .ok (.runTmoMerge false true) ∧
  decode [0x2C] = .ok (.runTmoAppend false true) ∧
  decode [0x36] = .ok (.runChange true true) ∧
  decode [0x22] = .ok (.runWait false true) ∧
  decode [0x60] = .ok (.reservedSt11 false false false false false) ∧
  decode [0x01, 0x05, 0x00, 0x00] = .ok (.recShort 5 0x01) ∧
  decode [0xAA, 0x01, 0x00, 0x80] = .ok (.recLong 1 0xAA) ∧
  decode [] = .ok .read

/-- R90: every selector value belongs to exactly one row of the operation map, and that row's operation is the one decoded. -/
def Obligations.SelectorRowsPartition : Prop :=
  ∀ sel : Byte, ∃ row, selectorRows.filter (fun r => r.covers sel) = [row] ∧
    (decodeSelector sel).operation = some row.operation

/-- R84, R87: every word decodes, by bit 31 alone, to the two forms, and its duration is its count in ticks or in units, at most
`CMAX * UNIT`. -/
def Obligations.RecordDecodesByFormatBit : Prop :=
  ∀ w : Word,
    (w.getLsbD 31 = false → decodeRecord w = .recShort (w.extractLsb' 8 23) (w.extractLsb' 0 8) ∧
      recordDuration w = (w.toNat / 2 ^ 8) % 2 ^ 23) ∧
    (w.getLsbD 31 = true → decodeRecord w = .recLong (w.extractLsb' 8 23) (w.extractLsb' 0 8) ∧
      recordDuration w = (w.toNat / 2 ^ 8) % 2 ^ 23 * 2 ^ 23) ∧
    recordDuration w ≤ 0x3FFFFF800000

/-- R83: the two word forms as numbers: `(t << 8) | s` for `t < 2^23`, and `0x80000000 | (u << 8) | s`. -/
def Obligations.EncoderWordForms : Prop :=
  (∀ (t : Tick) (smp : Byte), t.toNat < UNIT → (encShort t smp).toNat = t.toNat * 2 ^ 8 + smp.toNat) ∧
  (∀ (u : Count) (smp : Byte), (encLong u smp).toNat = 2 ^ 31 + u.toNat * 2 ^ 8 + smp.toNat)

/-- R134, R83: a merge adds `0x100` to a mergeable word, so that its format and sample stay and its count rises by one. -/
def Obligations.MergeRaisesOnlyTheCount : Prop :=
  ∀ (w : Word) (lvl : Byte), mergeable w lvl = true →
    bumpCount w = w + 0x100 ∧ recFmt (bumpCount w) = true ∧ recSmp (bumpCount w) = lvl ∧
    (recCnt (bumpCount w)).toNat = (recCnt w).toNat + 1

/-! ### Timer Reader -/

/-- R101: the source's shifted form, `E >= UNIT` and `E[23]` are the same test for every pair of readings, and its result at an
edge is the selector's `tmo` bit. -/
def Obligations.TimeoutTestFormsAgree : Prop :=
  (∀ bnd tickIn : Tick, (tmoOf bnd tickIn = true ↔ 2 ^ 23 ≤ (elapsedBetween bnd tickIn).toNat) ∧
    tmoOf bnd tickIn = tmoSourceForm bnd tickIn ∧ tmoOf bnd tickIn = (elapsedBetween bnd tickIn).getLsbD 23) ∧
  ∀ s : State, selTmo (selector s) = tmoOf s.bnd s.env.ports.tickIn

/-- R107, R102: ADVANCE flips bit 23 of the boundary and takes exactly one unit off the same reading's elapsed value. -/
def Obligations.AdvanceConsumesOneUnit : Prop :=
  ∀ bnd tickIn : Tick, advanced bnd = bnd ^^^ 0x800000 ∧
    (tmoOf bnd tickIn = true →
      (elapsedBetween (advanced bnd) tickIn).toNat + UNIT = (elapsedBetween bnd tickIn).toNat)

/-- R106: wherever RUN_CHANGE is selected, the elapsed ticks fit the 23-bit count with no truncation. -/
def Obligations.ChangeCountIsNeverTruncated : Prop :=
  ∀ s : State, selects s .runChange →
    (elapsed s).toNat < UNIT ∧ (recCnt (encShort (elapsed s) s.lvl)).toNat = (elapsed s).toNat

/-- R43: after every clock edge that ends in RUNNING, less than one unit has elapsed from the boundary to that edge's reading,
whether its inputs were scripted or free. -/
def Obligations.ElapsedBelowUnitAfterEdge : Prop :=
  ∀ s t : State, (s.env.pending = [] ∨ ∃ p rest, s.env.pending = .clock p :: rest) → s.n ≤ s.par.nmax →
    step s = .next t → t.st = .running → (elapsedBetween t.bnd t.env.ports.tickIn).toNat < UNIT

/-! ### The step -/

/-- R150: a clock edge runs the operation its selector decodes to, at the state whose wires the edge has driven; the read port
and the reader's record words run READ, REC_SHORT and REC_LONG; a rewind runs nothing. (What an event adds around the operation
is the model's own: log 3; a forced edge: log 1; READ as the empty byte string: log 19.) -/
def Obligations.StepRunsDecodedOperation : Prop :=
  (∀ (s : State) (p : Ports) (rest : List HostEvent) (i : Instr), s.env.pending = .clock p :: rest →
    decode [selector (driveEdge s p rest)] = .ok i → step s = exec i (driveEdge s p rest)) ∧
  (∀ (s : State) (p : Ports) (rest : List HostEvent) (i : Instr), s.env.pending = .clockForced p :: rest →
    decode [forcedSelector (driveEdge s p rest)] = .ok i → step s = exec i (driveEdge s p rest)) ∧
  (∀ (s : State) (i : Instr), s.env.pending = [] →
    decode [selector (driveEdge s (freePorts s.env.edges) [])] = .ok i →
    step s = exec i (driveEdge s (freePorts s.env.edges) [])) ∧
  (∀ (s : State) (addr : Nat) (rest : List HostEvent) (i : Instr), s.env.pending = .read addr :: rest →
    decode [] = .ok i → step s = exec i (driveRead s addr rest)) ∧
  (∀ (s : State) (rest : List HostEvent) (i : Instr), s.env.pending = .decodeRecord :: rest →
    decode [lane s.env.rdWord 0, lane s.env.rdWord 1, lane s.env.rdWord 2, lane s.env.rdWord 3] = .ok i →
    step s = exec i (dropEvent s rest)) ∧
  (∀ (s : State) (rest : List HostEvent), s.env.pending = .rewind :: rest → step s = .next (rewindReader s rest))

/-- R150, R203: the operation that the selector picks is the one of the priority order: reset, start outside RUNNING, then
full, timeout, change, wait. -/
def Obligations.OperationFollowsPriority : Prop :=
  ∀ s : State, selects s (priorityOperation s)

/-- R200: at every clock edge of a state with `n <= NMAX` the step returns a next state, with scripted inputs and without. -/
def Obligations.EveryEdgeCompletes : Prop :=
  ∀ s : State, s.n ≤ s.par.nmax →
    (s.env.pending = [] ∨ ∃ p rest, s.env.pending = .clock p :: rest) → ∃ t, step s = .next t

/-- R90, R91, R220: RESERVED_ST11 is refused; no edge of a representable session state selects it; at a forced edge it is
refused without reset, and with reset the edge is a RESET, which gives every register its reset value and changes nothing else
but the wires and the event. That a forced edge exists and is a RESET under `rst = 1` is the model's (log 1, DEDUCED from R90's
row `0x80`/`0x80`). -/
def Obligations.ReservedSelectorIsRefused : Prop :=
  (∀ (start tmo chg mrg full : Bool) (s : State),
    exec (.reservedSt11 start tmo chg mrg full) s = .refused .reservedSessionState) ∧
  (∀ (s : State) (p : Ports) (rest : List HostEvent), s.env.pending = .clockForced p :: rest →
    (p.rst = false → step s = .refused .reservedSessionState) ∧
    (p.rst = true → step s = .next (resetRegisters (driveEdge s p rest)))) ∧
  (∀ s : State, ¬ selects s .reserved)

/-! ### Operations outside a session -/

/-- R220: RESET gives every register its reset value and writes no buffer word, and it is selected by `rst = 1` in every state,
whatever the other inputs are. -/
def Obligations.ResetWritesEveryRegister : Prop :=
  (∀ (st : BitVec 2) (start tmo chg mrg full : Bool) (s : State),
    exec (.reset st start tmo chg mrg full) s = .next
      { s with
        st := .idle, n := 0, lvl := 0x00, bnd := 0x000000, bud := 0, bounded := false, termFull := false,
        termBudget := false, indWait := false, indActive := false }) ∧
  (∀ s : State, s.env.ports.rst = true → selects s .reset)

/-- R151: START writes the registers of a new session and no buffer word, its budget is the exact product, and it is selected
by `start = 1` outside RUNNING. -/
def Obligations.StartBeginsSession : Prop :=
  (∀ (stHigh tmo chg mrg full : Bool) (s : State), s.par.ticksPerMs ≤ 2 ^ 30 →
    ∃ b : Budget, b.toInt = (s.env.ports.tmaxMs.toNat : Int) * s.par.ticksPerMs ∧
      exec (.start stHigh tmo chg mrg full) s = .next
        { s with
          n := 0, lvl := s.env.ports.levelIn, bnd := s.env.ports.tickIn, bud := b,
          bounded := s.env.ports.tmaxMs != 0, termFull := false, termBudget := false, indWait := true,
          indActive := false, st := .running }) ∧
  (∀ s : State, s.env.ports.rst = false → s.env.ports.start = true → s.st ≠ .running → selects s .start)

/-- R152, R161: IDLE_HOLD and TERM_HOLD lower both indicators and change nothing else; each is selected without `rst` and
`start` in its own state. -/
def Obligations.HoldsLowerOnlyTheIndicators : Prop :=
  (∀ (tmo chg mrg full : Bool) (s : State),
    exec (.idleHold tmo chg mrg full) s = .next { s with indWait := false, indActive := false } ∧
    exec (.termHold tmo chg mrg full) s = .next { s with indWait := false, indActive := false }) ∧
  (∀ s : State, s.env.ports.rst = false → s.env.ports.start = false →
    (s.st = .idle → selects s .idleHold) ∧ (s.st = .terminated → selects s .termHold))

/-- R161, R70: a finished session stays as it is through any number of edges with neither `rst` nor `start`: every register but
the indicators, and every byte of the buffer. -/
def Obligations.FinishedSessionIsStable : Prop :=
  ∀ (ps : List Ports) (s : State), TraceInv s → s.st = .terminated → s.env.pending = ps.map .clock →
    (∀ p ∈ ps, p.rst = false ∧ p.start = false) →
    ∃ t, runSteps ps.length s = .next t ∧ observation t = observation s ∧
      t = { s with indWait := t.indWait, indActive := t.indActive, env := t.env }

/-! ### Operations in a session -/

/-- R154: RUN_WAIT raises the waiting indicator and changes nothing else; it is selected in RUNNING when there is neither
reset nor a full buffer nor a timeout nor a change. -/
def Obligations.WaitChangesOnlyTheIndicators : Prop :=
  (∀ (start mrg : Bool) (s : State),
    exec (.runWait start mrg) s = .next { s with indWait := true, indActive := false }) ∧
  (∀ s : State, s.env.ports.rst = false → s.st = .running → full s = false → tmo s = false → chg s = false →
    selects s .runWait)

/-- R155: RUN_CHANGE appends the interval as a short record of the old level, commits the new level and the reading, takes the
interval off the budget and stops on the results; every other byte of the buffer keeps its value. It is selected in RUNNING by
a change without reset, full buffer or timeout. -/
def Obligations.ChangeCommitsShortRecord : Prop :=
  (∀ s : State, s.env.ports.rst = false → s.st = .running → full s = false → tmo s = false → chg s = true →
    selects s .runChange) ∧
  ∀ (start mrg : Bool) (s : State), s.n < s.par.nmax → (elapsed s).toNat < UNIT →
    ∃ (t : State) (w : Word),
      exec (.runChange start mrg) s = .next t ∧
      recFmt w = false ∧ (recCnt w).toNat = (elapsed s).toNat ∧ recSmp w = s.lvl ∧
      Memory.readWord t.buf s.n = some w ∧
      (∀ a, a / 4 ≠ s.n → Memory.read t.buf a = Memory.read s.buf a) ∧
      (let bud' := s.bud - (elapsed s).setWidth 64
       let f := decide (s.n + 1 = s.par.nmax)
       let b := s.bounded && decide (bud'.toInt < 0)
       t = { s with
             n := s.n + 1, buf := t.buf, bud := bud', lvl := s.env.ports.levelIn, bnd := s.env.ports.tickIn,
             st := if f || b then .terminated else s.st,
             termFull := if f || b then f else s.termFull, termBudget := if f || b then b else s.termBudget,
             indWait := false, indActive := !(f || b) })

/-- R156: RUN_TMO_APPEND appends a long record of one unit at the committed level, advances the boundary by one unit, takes
one unit off the budget and stops on the results; every other byte of the buffer keeps its value. It is selected in RUNNING by
a timeout that cannot merge, whatever the level is. -/
def Obligations.TimeoutAppendsLongRecord : Prop :=
  (∀ s : State, s.env.ports.rst = false → s.st = .running → full s = false → tmo s = true → mrg s = false →
    selects s .runTmoAppend) ∧
  ∀ (start chg : Bool) (s : State), s.n < s.par.nmax →
    ∃ (t : State) (w : Word),
      exec (.runTmoAppend start chg) s = .next t ∧
      recFmt w = true ∧ recCnt w = 1 ∧ recSmp w = s.lvl ∧
      Memory.readWord t.buf s.n = some w ∧
      (∀ a, a / 4 ≠ s.n → Memory.read t.buf a = Memory.read s.buf a) ∧
      (let bud' := s.bud - 0x800000
       let f := decide (s.n + 1 = s.par.nmax)
       let b := s.bounded && decide (bud'.toInt < 0)
       t = { s with
             n := s.n + 1, buf := t.buf, bud := bud', bnd := s.bnd - 0x800000,
             st := if f || b then .terminated else s.st,
             termFull := if f || b then f else s.termFull, termBudget := if f || b then b else s.termBudget,
             indWait := false, indActive := !(f || b) })

/-- R157: RUN_TMO_MERGE raises the count of the last record by one, advances the boundary by one unit, takes one unit off the
budget and stops on the results; every other byte of the buffer keeps its value. It is selected in RUNNING by a timeout that can
merge, whatever the level is. -/
def Obligations.TimeoutMergesIntoLastRecord : Prop :=
  (∀ s : State, s.env.ports.rst = false → s.st = .running → full s = false → tmo s = true → mrg s = true →
    selects s .runTmoMerge) ∧
  ∀ (start chg : Bool) (s : State) (w : Word), 0 < s.n → s.n < s.par.nmax →
    Memory.readWord s.buf (s.n - 1) = some w → mergeable w s.lvl = true →
    ∃ t : State,
      exec (.runTmoMerge start chg) s = .next t ∧
      Memory.readWord t.buf (s.n - 1) = some (w + 0x100) ∧
      (∀ a, a / 4 ≠ s.n - 1 → Memory.read t.buf a = Memory.read s.buf a) ∧
      (let bud' := s.bud - 0x800000
       let b := s.bounded && decide (bud'.toInt < 0)
       t = { s with
             buf := t.buf, bud := bud', bnd := s.bnd - 0x800000,
             st := if b then .terminated else s.st,
             termFull := if b then false else s.termFull, termBudget := if b then b else s.termBudget,
             indWait := false, indActive := !b })

/-- R159: on a full buffer RUN_FULL ends the session, with no write and no change of `bnd`, `lvl` or `bud`; it is selected in
RUNNING by a full buffer, before every other condition but reset. -/
def Obligations.FullBufferEndsSession : Prop :=
  (∀ (start tmo chg mrg : Bool) (s : State), s.n = s.par.nmax →
    exec (.runFull start tmo chg mrg) s = .next
      { s with
        st := .terminated, termFull := true, termBudget := s.bounded && decide (s.bud.toInt < 0), indWait := false,
        indActive := false }) ∧
  (∀ s : State, s.env.ports.rst = false → s.st = .running → s.n = s.par.nmax → selects s .runFull)

/-- R135: on a full buffer every encoder operation is refused, the merge too, and is no fault: no buffer word and no count is
written; and a full buffer selects RUN_FULL in RUNNING before any of them. (What else a refused commit does is the model's
choice: log 9.) -/
def Obligations.EncoderRefusesWhenFull : Prop :=
  ∀ s : State, s.n = s.par.nmax →
    (∀ t : Tick, recordChange s t = .refused) ∧ recordTimeoutAppend s = .refused ∧ recordTimeoutMerge s = .refused ∧
    (∀ i : Instr, i.operation = some .runChange ∨ i.operation = some .runTmoAppend ∨ i.operation = some .runTmoMerge →
      ∃ t, exec i s = .next t ∧ t.buf = s.buf ∧ t.n = s.n) ∧
    (s.env.ports.rst = false → s.st = .running → selects s .runFull)

/-- R158: a commit or RUN_FULL in RUNNING ends the session exactly when the resulting count is `NMAX` or the resulting budget
of a bounded session is negative; it reports both conditions and lowers the indicators, and otherwise the session runs on with
the active indicator up. -/
def Obligations.SessionEndsOnStopCondition : Prop :=
  ∀ (s t : State) (i : Instr), s.st = .running → s.n ≤ s.par.nmax →
    (i.operation = some .runChange ∨ i.operation = some .runTmoAppend ∨ i.operation = some .runTmoMerge ∨
      i.operation = some .runFull) →
    exec i s = .next t →
    (t.st = .terminated ↔ t.n = t.par.nmax ∨ (t.bounded = true ∧ t.bud.toInt < 0)) ∧
    (t.st = .terminated → (t.termFull = true ↔ t.n = t.par.nmax) ∧
      (t.termBudget = true ↔ t.bounded = true ∧ t.bud.toInt < 0) ∧ t.indWait = false ∧ t.indActive = false) ∧
    (t.st ≠ .terminated → t.st = .running ∧ t.termFull = s.termFull ∧ t.termBudget = s.termBudget ∧ t.indWait = false ∧
      t.indActive = true)

/-- R172: in a running session with room, a change at `E = 2^23 - 1` is a short record of count `0x7FFFFF`, and at
`E = 2^23` the step is a timeout whatever the level is. -/
def Obligations.UnitBoundaryRoutesToTimeout : Prop :=
  ∀ s : State, s.env.ports.rst = false → s.st = .running → s.n < s.par.nmax →
    ((elapsed s).toNat = 2 ^ 23 - 1 → s.env.ports.levelIn ≠ s.lvl →
      selects s .runChange ∧ ∃ t w, execRunChange s = .next t ∧ Memory.readWord t.buf s.n = some w ∧
        recFmt w = false ∧ recCnt w = 0x7FFFFF) ∧
    ((elapsed s).toNat = 2 ^ 23 → selects s .runTmoAppend ∨ selects s .runTmoMerge)

/-- R153: in RUNNING, `start` and `tmax_ms` change nothing but the input wires themselves, so that only reset ends a session
from outside; and `tmax_ms` is ignored in every edge but START. -/
def Obligations.StartIgnoredWhileRunning : Prop :=
  ∀ (s t : State) (p : Ports) (rest : List HostEvent) (start : Bool) (tmaxMs : BitVec 32),
    step { s with env := { s.env with pending := .clock p :: rest } } = .next t →
    (s.st = .running →
      step { s with env := { s.env with pending := .clock { p with start := start, tmaxMs := tmaxMs } :: rest } } =
        .next { t with env := { t.env with ports := { p with start := start, tmaxMs := tmaxMs } } }) ∧
    (p.rst = true ∨ p.start = false →
      step { s with env := { s.env with pending := .clock { p with tmaxMs := tmaxMs } :: rest } } =
        .next { t with env := { t.env with ports := { p with tmaxMs := tmaxMs } } })

/-- R165: after a clock edge `ind_wait` is up exactly when the step was START or RUN_WAIT, and `ind_active` exactly when it was
a commit that left the session running; and their values before the edge affect nothing. -/
def Obligations.IndicatorsMarkThePhases : Prop :=
  ∀ (s t : State) (p : Ports) (rest : List HostEvent) (op : Operation), s.env.pending = .clock p :: rest →
    selects (driveEdge s p rest) op → s.n ≤ s.par.nmax → step s = .next t →
    (t.indWait = true ↔ op = .start ∨ op = .runWait) ∧
    (t.indActive = true ↔ isCommit op = true ∧ t.st = .running) ∧
    ∀ wait active : Bool, step { s with indWait := wait, indActive := active } = .next t

/-- R62: a clock edge writes at most one word, at index `n` by an append, which raises `n` by one, or at index `n - 1` by a
merge, which leaves `n`; every other byte of the buffer keeps its value. -/
def Obligations.EdgeWritesAtMostOneWord : Prop :=
  ∀ (s t : State) (p : Ports) (rest : List HostEvent) (op : Operation), s.env.pending = .clock p :: rest →
    selects (driveEdge s p rest) op → step s = .next t →
    (∀ a, storedIndex (some op) s ≠ some (a / 4) → Memory.read t.buf a = Memory.read s.buf a) ∧
    (op = .runChange ∨ op = .runTmoAppend → s.n < s.par.nmax → t.n = s.n + 1) ∧
    (op = .runTmoMerge → 0 < s.n ∧ t.n = s.n)

/-! ### The read port and the reader -/

/-- R190, R67 (`rdWord` is the model's own field: log 11): READ always completes and changes nothing but the word the reader
holds; outside RUNNING that word is 0 beyond the buffer and the record within `[0, n)`. -/
def Obligations.ReadAnswersByAddress : Prop :=
  ∀ s : State, ∃ w : Word,
    exec .read s = .next { s with env := { s.env with rdWord := w } } ∧
    (s.st ≠ .running → s.par.nmax ≤ s.env.rdAddr → w = 0) ∧
    (s.st ≠ .running → s.env.rdAddr < s.par.nmax → s.env.rdAddr < s.n →
      ∀ v, Memory.readWord s.buf s.env.rdAddr = some v → w = v)

/-- R67: two reads of one index with no clock edge between them return the same word, in every state, and change no state of
CORE; a buffer write stores its word and does nothing else. -/
def Obligations.RepeatedReadsAgree : Prop :=
  (∀ (s : State) (addr : Nat) (rest : List HostEvent), s.env.pending = .read addr :: .read addr :: rest →
    ∃ t u, step s = .next t ∧ step t = .next u ∧ u.env.rdWord = t.env.rdWord ∧
      t = { s with env := t.env } ∧ u = { s with env := u.env }) ∧
  ∀ (s : State) (i : Nat) (w : Word), i < s.par.nmax →
    ∃ t, bufWrite s i w = some t ∧ t = { s with buf := t.buf } ∧ Memory.readWord t.buf i = some w ∧
      ∀ a, a / 4 ≠ i → Memory.read t.buf a = Memory.read s.buf a

/-- R84 to R86, R85: a record word with a count enters one interval of its duration at its level, ending in a change exactly
when it is short; a word with count 0 is refused by name; no register of CORE changes. (Where the reader keeps its intervals is
the model's choice: log 10.) -/
def Obligations.RecordWordEntersItsInterval : Prop :=
  ∀ (cnt : Count) (smp : Byte) (s : State),
    (cnt ≠ 0 →
      exec (.recShort cnt smp) s = .next
        { s with
          env := { s.env with
            time := s.env.time + cnt.toNat,
            history := s.env.history ++ [⟨s.env.time, s.env.time + cnt.toNat, smp, true⟩] } } ∧
      exec (.recLong cnt smp) s = .next
        { s with
          env := { s.env with
            time := s.env.time + cnt.toNat * 2 ^ 23,
            history := s.env.history ++ [⟨s.env.time, s.env.time + cnt.toNat * 2 ^ 23, smp, false⟩] } }) ∧
    (cnt = 0 →
      exec (.recShort cnt smp) s = .refused .invalidRecord ∧ exec (.recLong cnt smp) s = .refused .invalidRecord)

/-- R86, R193: reading and decoding a finished session's records in order, with no count-0 word among them, gives the intervals
`T_0 = 0`, `T_{i+1} = T_i + dur(buf[i])` at the records' levels, and changes no state of CORE. (The reader's program is
the model's: log 10.) -/
def Obligations.ReaderRebuildsTheIntervals : Prop :=
  ∀ s : State, TraceInv s → s.st = .terminated → (∀ w ∈ records s, recCnt w ≠ 0) →
    s.env.pending = stimDecodeBuffer s.n →
    ∃ t, runSteps (2 * s.n + 1) s = .next t ∧ t.env.history = spansFrom 0 (records s) ∧
      t.env.time = totalDuration s ∧ t = { s with env := t.env }

/-- R64: on a byte bus, byte `k` of record `i` of a finished session stands at `BUF_BASE + 4*i + k`, bits 7:0 lowest, and the
four bytes decode to the record. -/
def Obligations.BusViewIsLittleEndian : Prop :=
  ∀ (s : State) (i : Nat) (w : Word), TraceInv s → s.st = .terminated → i < s.n → Memory.readWord s.buf i = some w →
    ∃ b0 b1 b2 b3 : Byte,
      busByte s (s.par.bufBase + 4 * i) = some b0 ∧ busByte s (s.par.bufBase + 4 * i + 1) = some b1 ∧
      busByte s (s.par.bufBase + 4 * i + 2) = some b2 ∧ busByte s (s.par.bufBase + 4 * i + 3) = some b3 ∧
      b0 = recSmp w ∧ b3.getLsbD 7 = recFmt w ∧
      w.toNat = b0.toNat + b1.toNat * 2 ^ 8 + b2.toNat * 2 ^ 16 + b3.toNat * 2 ^ 24 ∧
      decode [b0, b1, b2, b3] = .ok (decodeRecord w)

/-- R36, R9: the Moore outputs are those functions of the state, and the count fits the `NW` bits of its port. -/
def Obligations.OutputsFollowTheState : Prop :=
  ∀ s : State,
    ((outputs s).busy = true ↔ s.st = .running) ∧ ((outputs s).done = true ↔ s.st = .terminated) ∧
    (outputs s).count = s.n ∧ (outputs s).termFull = s.termFull ∧ (outputs s).termBudget = s.termBudget ∧
    (outputs s).indWait = s.indWait ∧ (outputs s).indActive = s.indActive ∧
    (s.par.Valid → s.n ≤ s.par.nmax → (outputs s).count < 2 ^ countWidth s.par)

/-- R94: `SEQ k, tick0, d, level` is the `k` polls `S (tick0 - j*d) mod 2^24, level`. -/
def Obligations.SeqExpandsToPolls : Prop :=
  ∀ (k : Nat) (tick0 d : Tick) (level : Byte),
    stimSeq k tick0 d level =
      (List.range k).map (fun j => stimStep (tick0 - BitVec.ofNat 24 (j * d.toNat)) level)

/-- R42, R81, R85: while the spacing of R230 and R231 is kept, an edge adds no count-0 record: if every record could be
interpreted before it, every record can be after it. -/
def Obligations.SpacedEdgesRecordPositiveCounts : Prop :=
  ∀ (s t : State) (p : Ports) (rest : List HostEvent), TraceInv s → s.st = .running → (elapsed s).toNat < UNIT →
    s.env.pending = .clock p :: rest → spacedBy s.env.ports.tickIn p.tickIn →
    (∀ w ∈ records s, recCnt w ≠ 0) → step s = .next t → ∀ w ∈ records t, recCnt w ≠ 0

/-! ### Invariants and runs -/

/-- R40: after RESET every register holds its reset value and no byte of the buffer has one. -/
def Obligations.ResetStateHoldsTheResetValues : Prop :=
  State.reset.st = .idle ∧ State.reset.n = 0 ∧ State.reset.lvl = 0x00 ∧ State.reset.bnd = 0x000000 ∧ State.reset.bud = 0 ∧
  State.reset.bounded = false ∧ State.reset.termFull = false ∧ State.reset.termBudget = false ∧
  State.reset.indWait = false ∧ State.reset.indActive = false ∧ ∀ a, Memory.read State.reset.buf a = none

/-- R40, R41: the state after RESET meets the invariants, with any parameters that R8 admits and with the machine's own. -/
def Obligations.ResetMeetsTheInvariants : Prop :=
  (∀ p : Params, p.Valid → TraceInv (State.resetWith p) ∧ StatusInv (State.resetWith p)) ∧
  TraceInv State.reset ∧ StatusInv State.reset

/-- R41, R42, R68, R86: every step keeps the invariants of the trace buffer. -/
def Obligations.StepKeepsTraceInvariant : Prop :=
  ∀ s t : State, TraceInv s → step s = .next t → TraceInv t

/-- R28, R158, R165, R173: every step keeps what the status flags and the indicators mean. -/
def Obligations.StepKeepsStatusInvariant : Prop :=
  ∀ s t : State, TraceInv s → StatusInv s → step s = .next t → StatusInv t

/-- R44, R151: START opens the ledger of its session, at the exact product and at its own reading. -/
def Obligations.StartOpensTheLedger : Prop :=
  ∀ (s t : State) (p : Ports) (rest : List HostEvent), s.par.Valid → s.env.pending = .clock p :: rest →
    p.rst = false → p.start = true → s.st ≠ .running → step s = .next t →
    t.st = .running ∧ Ledger ((p.tmaxMs.toNat : Int) * s.par.ticksPerMs) p.tickIn t

/-- R27, R44, R160: every edge of a session keeps its ledger: the budget never overflows and is the start value less the
duration of the records, and the boundary lies exactly that many ticks after the start reading. -/
def Obligations.EdgeKeepsTheLedger : Prop :=
  ∀ (s t : State) (p : Ports) (rest : List HostEvent) (budget : Int) (start : Tick), TraceInv s → StatusInv s →
    s.st ≠ .idle → Ledger budget start s → s.env.pending = .clock p :: rest → p.rst = false →
    (s.st = .running ∨ p.start = false) → step s = .next t → t.st ≠ .idle ∧ Ledger budget start t

/-- R162: a bounded session that the budget ends has recorded at least one tick more than its start budget and at most one
unit more. -/
def Obligations.BudgetStopMeetsTheContract : Prop :=
  ∀ (s t : State) (p : Ports) (rest : List HostEvent) (budget : Int) (start : Tick), TraceInv s → StatusInv s →
    s.st = .running → Ledger budget start s → s.env.pending = .clock p :: rest → p.rst = false → step s = .next t →
    t.st = .terminated → t.termBudget = true →
    budget + 1 ≤ totalDuration t ∧ (totalDuration t : Int) ≤ budget + UNIT

/-- R171: an unbounded session ends exactly at the edge that makes `n` reach `NMAX`, with `term_full = 1` and
`term_budget = 0`. -/
def Obligations.UnboundedSessionEndsWhenFull : Prop :=
  ∀ (s t : State) (p : Ports) (rest : List HostEvent), s.st = .running → s.bounded = false → s.n ≤ s.par.nmax →
    s.env.pending = .clock p :: rest → p.rst = false → step s = .next t →
    t.n ≤ t.par.nmax ∧ (t.st = .terminated ↔ t.n = t.par.nmax) ∧ (t.st ≠ .terminated → t.st = .running) ∧
    (t.st = .terminated → t.termFull = true ∧ t.termBudget = false)

/-- R126: with the spacing of R230 and R231, the edge after a timeout is no timeout; if the session still runs and the level
then differs from the committed one, that edge commits it. -/
def Obligations.TimeoutIsFollowedByCommit : Prop :=
  ∀ (s t : State) (p q : Ports) (rest : List HostEvent), s.st = .running → s.n < s.par.nmax →
    (elapsed s).toNat < UNIT → s.env.pending = .clock p :: .clock q :: rest → p.rst = false → q.rst = false →
    spacedBy s.env.ports.tickIn p.tickIn → spacedBy p.tickIn q.tickIn →
    tmo (driveEdge s p (.clock q :: rest)) = true → step s = .next t → t.st = .running →
    tmo (driveEdge t q rest) = false ∧
    (q.levelIn ≠ s.lvl → selects (driveEdge t q rest) .runChange ∧
      ∃ u, step t = .next u ∧ u.lvl = q.levelIn ∧ u.bnd = q.tickIn ∧ u.n = t.n + 1)

/-- R138: a run of edges with `k >= 1` timeouts, any waits between them and no change, from a state whose last record cannot take
a timeout (the buffer empty or the last record short), leaves `(k-1)/CMAX` saturated long records and one with the rest, all at
the committed level, and nothing else new. The session must not end before the last of them: the budget covers the first
`k - 1`, and the buffer has room for the records and, where the last record fills it, the last timeout is the one that appends
it. The session ends at the last timeout exactly where that fills the buffer or spends the budget, as in the saturation program
of 95_test_vectors.md section 3.8 (`NMAX = 2`, `k = 2^23`, a wait before each timeout). -/
def Obligations.TimeoutsFillLongRecords : Prop :=
  ∀ (k : Nat) (ps : List Ports) (s : State), s.st = .running → timeoutCount s.bnd ps = k → 1 ≤ k →
    (s.bounded = true → ((k - 1 : Nat) : Int) * UNIT ≤ s.bud.toInt) →
    s.n + (k - 1) / CMAX + 1 ≤ s.par.nmax →
    (s.n + (k - 1) / CMAX + 1 = s.par.nmax → (k - 1) % CMAX = 0) →
    (s.n = 0 ∨ ∃ w, Memory.readWord s.buf (s.n - 1) = some w ∧ recFmt w = false) →
    s.env.pending = ps.map .clock → timeoutsAndWaits s.lvl s.bnd ps →
    ∃ t, runSteps ps.length s = .next t ∧
      t.st = (if s.n + (k - 1) / CMAX + 1 = s.par.nmax ∨ (s.bounded = true ∧ s.bud.toInt < (k : Int) * UNIT)
        then .terminated else .running) ∧
      t.lvl = s.lvl ∧ t.n = s.n + (k - 1) / CMAX + 1 ∧
      (∀ j < (k - 1) / CMAX, Memory.readWord t.buf (s.n + j) = some (encLong (BitVec.ofNat 23 CMAX) s.lvl)) ∧
      Memory.readWord t.buf (s.n + (k - 1) / CMAX) =
        some (encLong (BitVec.ofNat 23 (k - CMAX * ((k - 1) / CMAX))) s.lvl) ∧
      (∀ a, a < 4 * s.n → Memory.read t.buf a = Memory.read s.buf a)

/-- R105: a run with every reading offset by one constant is the same run with the boundary offset by it: same operations,
same records, same flags. -/
def Obligations.RunsAreOffsetInvariant : Prop :=
  ∀ (c : Tick) (ps : List Ports) (s t : State), (∀ p ∈ ps, p.rst = false) → s.env.pending = ps.map .clock →
    runSteps ps.length s = .next t →
    runSteps ps.length (shiftReadings c s) = .next (shiftReadings c t) ∧
    observation (shiftReadings c t) = observation t

/-- R175, R63, R223: a START and the edges after it give the same records, count and flags whatever the registers and the buffer
held before: nothing of an earlier session affects a later one. -/
def Obligations.SessionsAreIndependent : Prop :=
  ∀ (p : Ports) (ps : List Ports) (s s' t : State), s.st ≠ .running → s'.st ≠ .running → s'.par = s.par →
    s'.env = s.env → s.env.pending = .clock p :: ps.map .clock → p.rst = false → p.start = true →
    runSteps (ps.length + 1) s = .next t →
    ∃ t', runSteps (ps.length + 1) s' = .next t' ∧ SameRecords t t' ∧ observation t' = observation t

/-- R176: with the host's duties kept and no reset, a session ends within `NMAX * CMAX * UNIT` edges after its START. -/
def Obligations.SessionEndsInBoundedTime : Prop :=
  ∀ (p : Ports) (ps : List Ports) (s : State), TraceInv s → s.st ≠ .running →
    s.env.pending = .clock p :: ps.map .clock → p.rst = false → p.start = true → keepsDuties p.tickIn ps →
    s.par.nmax * CMAX * UNIT ≤ ps.length →
    ∃ k t, k ≤ s.par.nmax * CMAX * UNIT ∧ runSteps (k + 1) s = .next t ∧ t.st = .terminated
end

