-- ==== Sys2Proof/Laws/Memory.lean ====
section
/-! SUPPORT. The laws of the trace buffer's memory: a read after a write, and the canonical form that every write keeps. -/

namespace Sys2Proof.Machine

@[simp] theorem Memory.read_nil (a : Nat) : Memory.read [] a = none := rfl

theorem Memory.read_cons (c : Host.Cell) (m : Memory) (a : Nat) :
    Memory.read (c :: m) a = if c.1 = a then some c.2 else Memory.read m a := rfl

/-- A byte just written reads back. -/
@[simp] theorem Memory.read_write_same (m : Memory) (a : Nat) (v : Byte) : Memory.read (Memory.write m a v) a = some v := by
  induction m with
  | nil => simp [Memory.write, Memory.read_cons]
  | cons c m ih =>
    obtain ⟨a', b'⟩ := c
    simp only [Memory.write]
    split
    · simp [Memory.read_cons]
    · split
      · simp [Memory.read_cons]
      · next h => simpa [Memory.read_cons, Ne.symm h] using ih

/-- A write leaves every other byte alone. -/
theorem Memory.read_write_other (m : Memory) (a b : Nat) (v : Byte) (h : b ≠ a) :
    Memory.read (Memory.write m a v) b = Memory.read m b := by
  induction m with
  | nil => simp [Memory.write, Memory.read_cons, Ne.symm h]
  | cons c m ih =>
    obtain ⟨a', b'⟩ := c
    simp only [Memory.write]
    split
    · simp [Memory.read_cons, Ne.symm h]
    · split
      · next h' => subst h'; simp [Memory.read_cons, Ne.symm h]
      · simp [Memory.read_cons, ih]

theorem Memory.read_write (m : Memory) (a b : Nat) (v : Byte) :
    Memory.read (Memory.write m a v) b = if b = a then some v else Memory.read m b := by
  split
  · next h => subst h; simp
  · next h => exact Memory.read_write_other m a b v h

/-- A word write, byte by byte. -/
theorem Memory.read_writeWord (m : Memory) (i : Nat) (w : Word) (a : Nat) :
    Memory.read (Memory.writeWord m i w) a = if a / 4 = i then some (lane w (a % 4)) else Memory.read m a := by
  simp only [Memory.writeWord, Memory.read_write]
  by_cases h : a / 4 = i
  · obtain h4 | h4 | h4 | h4 : a % 4 = 0 ∨ a % 4 = 1 ∨ a % 4 = 2 ∨ a % 4 = 3 := by omega
    all_goals
      obtain ha : a = 4 * i + a % 4 := by omega
      rw [h4] at ha
      subst ha
      simp [h, h4]
  · rw [if_neg (by omega), if_neg (by omega), if_neg (by omega), if_neg (by omega), if_neg h]

/-- A word write leaves every byte outside the word alone (R62). -/
theorem Memory.read_writeWord_other (m : Memory) (i : Nat) (w : Word) (a : Nat) (h : a / 4 ≠ i) :
    Memory.read (Memory.writeWord m i w) a = Memory.read m a := by
  rw [Memory.read_writeWord, if_neg h]

/-- The byte lanes of a word put together again (R64). -/
@[simp] theorem ofLanes_lane (w : Word) : ofLanes (lane w 0) (lane w 1) (lane w 2) (lane w 3) = w := by
  apply BitVec.eq_of_getLsbD_eq
  intro i hi
  simp only [ofLanes, lane, BitVec.getLsbD_append, BitVec.getLsbD_extractLsb']
  split
  · next h => simp [h]
  · split
    · next h h' =>
      have : 8 + (i - 8) = i := by omega
      simp [h', this]
    · split
      · next h h' h'' =>
        have : 16 + (i - 8 - 8) = i := by omega
        simp [h'', this]
      · next h h' h'' =>
        have : 24 + (i - 8 - 8 - 8) = i := by omega
        have h3 : i - 8 - 8 - 8 < 8 := by omega
        simp [this, h3]

/-- A word just written reads back (R66). -/
@[simp] theorem Memory.readWord_writeWord_same (m : Memory) (i : Nat) (w : Word) :
    Memory.readWord (Memory.writeWord m i w) i = some w := by
  have h0 : 4 * i / 4 = i := by omega
  have h1 : (4 * i + 1) / 4 = i := by omega
  have h2 : (4 * i + 2) / 4 = i := by omega
  have h3 : (4 * i + 3) / 4 = i := by omega
  have m0 : 4 * i % 4 = 0 := by omega
  have m1 : (4 * i + 1) % 4 = 1 := by omega
  have m2 : (4 * i + 2) % 4 = 2 := by omega
  have m3 : (4 * i + 3) % 4 = 3 := by omega
  simp [Memory.readWord, Memory.read_writeWord, h0, h1, h2, h3, m1, m2, m3]

/-- A word write leaves every other word alone (R62). -/
theorem Memory.readWord_writeWord_other (m : Memory) (i j : Nat) (w : Word) (h : j ≠ i) :
    Memory.readWord (Memory.writeWord m i w) j = Memory.readWord m j := by
  have h0 : 4 * j / 4 ≠ i := by omega
  have h1 : (4 * j + 1) / 4 ≠ i := by omega
  have h2 : (4 * j + 2) / 4 ≠ i := by omega
  have h3 : (4 * j + 3) / 4 ≠ i := by omega
  simp [Memory.readWord, Memory.read_writeWord, h1, h2, h3, h]

/-- What the canonical form says of a memory with a first entry. -/
theorem Memory.wf_cons (c : Host.Cell) (m : Memory) :
    Memory.wf (c :: m) = true ↔ (∀ d ∈ m, c.1 < d.1) ∧ Memory.wf m = true := by
  induction m generalizing c with
  | nil => simp [Memory.wf]
  | cons d m ih =>
    obtain ⟨a, b⟩ := c
    obtain ⟨a', b'⟩ := d
    simp only [Memory.wf, Bool.and_eq_true, decide_eq_true_eq, List.mem_cons, forall_eq_or_imp]
    constructor
    · rintro ⟨h, hw⟩
      have hm := ((ih (a', b')).1 hw).1
      exact ⟨⟨h, fun d hd => lt_trans h (hm d hd)⟩, hw⟩
    · rintro ⟨⟨h, -⟩, hw⟩
      exact ⟨h, hw⟩

/-- The entries after a write are the written one and entries there were before. -/
theorem Memory.mem_write (m : Memory) (a : Nat) (v : Byte) (c : Host.Cell) (h : c ∈ Memory.write m a v) :
    c = (a, v) ∨ c ∈ m := by
  induction m with
  | nil => simpa [Memory.write] using h
  | cons d m ih =>
    obtain ⟨a', b'⟩ := d
    simp only [Memory.write] at h
    split at h
    · simpa using h
    · split at h
      · simp only [List.mem_cons] at h ⊢
        tauto
      · simp only [List.mem_cons] at h ⊢
        rcases h with h | h
        · exact .inr (.inl h)
        · rcases ih h with h | h
          · exact .inl h
          · exact .inr (.inr h)

/-- A byte write keeps the canonical form. -/
theorem Memory.wf_write (m : Memory) (a : Nat) (v : Byte) (h : Memory.wf m = true) : Memory.wf (Memory.write m a v) = true := by
  induction m with
  | nil => rfl
  | cons d m ih =>
    obtain ⟨a', b'⟩ := d
    obtain ⟨hd, hm⟩ := (Memory.wf_cons _ _).1 h
    simp only [Memory.write]
    split
    · next hlt =>
      refine (Memory.wf_cons _ _).2 ⟨?_, h⟩
      simp only [List.mem_cons, forall_eq_or_imp]
      exact ⟨hlt, fun d hd' => lt_trans hlt (hd d hd')⟩
    · split
      · next heq => subst heq; exact (Memory.wf_cons _ _).2 ⟨hd, hm⟩
      · next hge hne =>
        refine (Memory.wf_cons _ _).2 ⟨fun c hc => ?_, ih hm⟩
        rcases Memory.mem_write m a v c hc with rfl | hc
        · show a' < a
          omega
        · exact hd c hc

/-- A word write keeps the canonical form. -/
theorem Memory.wf_writeWord (m : Memory) (i : Nat) (w : Word) (h : Memory.wf m = true) :
    Memory.wf (Memory.writeWord m i w) = true :=
  Memory.wf_write _ _ _ (Memory.wf_write _ _ _ (Memory.wf_write _ _ _ (Memory.wf_write _ _ _ h)))

/-- The entries after a word write lie in the word or were there before. -/
theorem Memory.mem_writeWord (m : Memory) (i : Nat) (w : Word) (c : Host.Cell) (h : c ∈ Memory.writeWord m i w) :
    c.1 / 4 = i ∨ c ∈ m := by
  simp only [Memory.writeWord] at h
  rcases Memory.mem_write _ _ _ _ h with rfl | h
  · left; simp only; omega
  rcases Memory.mem_write _ _ _ _ h with rfl | h
  · left; simp only; omega
  rcases Memory.mem_write _ _ _ _ h with rfl | h
  · left; simp only; omega
  rcases Memory.mem_write _ _ _ _ h with rfl | h
  · left; simp only; omega
  exact .inr h

end Sys2Proof.Machine
end

