-- ==== Sys2Proof/Laws/Selector.lean ====
section
/-! SUPPORT. What the decoder makes of a selector that was packed from its fields (30_encoding.md rules R89 and R90), and of a
record packed from its fields (R80). -/

namespace Sys2Proof

open Machine

/-- A packed selector decodes by `rst`, then `st` and `start`, then `full`, `tmo`, `mrg` and `chg` (R90, R150). -/
theorem decodeSelector_packSelector (rst : Bool) (st : BitVec 2) (start tmo chg mrg full : Bool) :
    decodeSelector (packSelector rst st start tmo chg mrg full) =
      if rst then .reset st start tmo chg mrg full
      else if st = 0b11 then .reservedSt11 start tmo chg mrg full
      else if st = 0b01 then
        if full then .runFull start tmo chg mrg
        else if tmo then (if mrg then .runTmoMerge start chg else .runTmoAppend start chg)
        else if chg then .runChange start mrg
        else .runWait start mrg
      else if start then .start (st.getLsbD 1) tmo chg mrg full
      else if st = 0b00 then .idleHold tmo chg mrg full
      else .termHold tmo chg mrg full := by
  revert rst st start tmo chg mrg full
  decide

/-- Every selector is the pack of its own fields (R89). -/
theorem packSelector_fields (sel : Byte) :
    packSelector (selRst sel) (selSt sel) (selStart sel) (selTmo sel) (selChg sel) (selMrg sel) (selFull sel) = sel := by
  revert sel
  decide

/-- A packed record, bit by bit (R80). -/
theorem getLsbD_packRecord (fmt : Bool) (cnt : Count) (smp : Byte) (i : Nat) :
    (packRecord fmt cnt smp).getLsbD i =
      if i < 8 then smp.getLsbD i else if i < 31 then cnt.getLsbD (i - 8) else (decide (i = 31) && fmt) := by
  simp only [packRecord, BitVec.getLsbD_append, BitVec.getLsbD_ofBool]
  split
  · rfl
  · by_cases h : i < 31
    · rw [if_pos (by omega), if_pos h]
    · rw [if_neg (by omega), if_neg h]
      congr 2
      exact propext ⟨fun _ => by omega, fun _ => by omega⟩

@[simp] theorem recFmt_packRecord (fmt : Bool) (cnt : Count) (smp : Byte) : recFmt (packRecord fmt cnt smp) = fmt := by
  rw [recFmt, getLsbD_packRecord]
  rfl

@[simp] theorem recCnt_packRecord (fmt : Bool) (cnt : Count) (smp : Byte) : recCnt (packRecord fmt cnt smp) = cnt := by
  apply BitVec.eq_of_getLsbD_eq
  intro i hi
  rw [recCnt, BitVec.getLsbD_extractLsb', getLsbD_packRecord, if_neg (by omega), if_pos (by omega), Nat.add_sub_cancel_left]
  simp [hi]

@[simp] theorem recSmp_packRecord (fmt : Bool) (cnt : Count) (smp : Byte) : recSmp (packRecord fmt cnt smp) = smp := by
  apply BitVec.eq_of_getLsbD_eq
  intro i hi
  rw [recSmp, BitVec.getLsbD_extractLsb', getLsbD_packRecord, if_pos (by omega)]
  simp [hi]

/-- Every word is the record of its own fields (R80). -/
theorem packRecord_fields (w : Word) : packRecord (recFmt w) (recCnt w) (recSmp w) = w := by
  apply BitVec.eq_of_getLsbD_eq
  intro i hi
  simp only [packRecord, recFmt, recCnt, recSmp, BitVec.getLsbD_append, BitVec.getLsbD_extractLsb']
  split
  · next h => simp [h]
  · split
    · next h h' =>
      have : 8 + (i - 8) = i := by omega
      simp [h', this]
    · next h h' =>
      have : i = 31 := by omega
      subst this
      simp

end Sys2Proof
end

