-- ==== Sys2Proof/Laws/State.lean ====
section
/-! SUPPORT. One lemma per field per update of the state, so that no later proof unfolds a record update. -/

namespace Sys2Proof.Machine

section
variable (s : State) (wait active : Bool)

@[simp] theorem setIndicators_st : (setIndicators s wait active).st = s.st := rfl
@[simp] theorem setIndicators_n : (setIndicators s wait active).n = s.n := rfl
@[simp] theorem setIndicators_lvl : (setIndicators s wait active).lvl = s.lvl := rfl
@[simp] theorem setIndicators_bnd : (setIndicators s wait active).bnd = s.bnd := rfl
@[simp] theorem setIndicators_bud : (setIndicators s wait active).bud = s.bud := rfl
@[simp] theorem setIndicators_bounded : (setIndicators s wait active).bounded = s.bounded := rfl
@[simp] theorem setIndicators_termFull : (setIndicators s wait active).termFull = s.termFull := rfl
@[simp] theorem setIndicators_termBudget : (setIndicators s wait active).termBudget = s.termBudget := rfl
@[simp] theorem setIndicators_indWait : (setIndicators s wait active).indWait = wait := rfl
@[simp] theorem setIndicators_indActive : (setIndicators s wait active).indActive = active := rfl
@[simp] theorem setIndicators_buf : (setIndicators s wait active).buf = s.buf := rfl
@[simp] theorem setIndicators_par : (setIndicators s wait active).par = s.par := rfl
@[simp] theorem setIndicators_env : (setIndicators s wait active).env = s.env := rfl
end

section
variable (s : State)

@[simp] theorem rebase_st : (rebase s).st = s.st := rfl
@[simp] theorem rebase_n : (rebase s).n = s.n := rfl
@[simp] theorem rebase_lvl : (rebase s).lvl = s.lvl := rfl
@[simp] theorem rebase_bnd : (rebase s).bnd = s.env.ports.tickIn := rfl
@[simp] theorem rebase_bud : (rebase s).bud = s.bud := rfl
@[simp] theorem rebase_bounded : (rebase s).bounded = s.bounded := rfl
@[simp] theorem rebase_termFull : (rebase s).termFull = s.termFull := rfl
@[simp] theorem rebase_termBudget : (rebase s).termBudget = s.termBudget := rfl
@[simp] theorem rebase_indWait : (rebase s).indWait = s.indWait := rfl
@[simp] theorem rebase_indActive : (rebase s).indActive = s.indActive := rfl
@[simp] theorem rebase_buf : (rebase s).buf = s.buf := rfl
@[simp] theorem rebase_par : (rebase s).par = s.par := rfl
@[simp] theorem rebase_env : (rebase s).env = s.env := rfl
end

section
variable (s : State)

@[simp] theorem commitLevel_st : (commitLevel s).st = s.st := rfl
@[simp] theorem commitLevel_n : (commitLevel s).n = s.n := rfl
@[simp] theorem commitLevel_lvl : (commitLevel s).lvl = s.env.ports.levelIn := rfl
@[simp] theorem commitLevel_bnd : (commitLevel s).bnd = s.bnd := rfl
@[simp] theorem commitLevel_bud : (commitLevel s).bud = s.bud := rfl
@[simp] theorem commitLevel_bounded : (commitLevel s).bounded = s.bounded := rfl
@[simp] theorem commitLevel_termFull : (commitLevel s).termFull = s.termFull := rfl
@[simp] theorem commitLevel_termBudget : (commitLevel s).termBudget = s.termBudget := rfl
@[simp] theorem commitLevel_indWait : (commitLevel s).indWait = s.indWait := rfl
@[simp] theorem commitLevel_indActive : (commitLevel s).indActive = s.indActive := rfl
@[simp] theorem commitLevel_buf : (commitLevel s).buf = s.buf := rfl
@[simp] theorem commitLevel_par : (commitLevel s).par = s.par := rfl
@[simp] theorem commitLevel_env : (commitLevel s).env = s.env := rfl
end

section
variable (s : State)

@[simp] theorem advance_st : (advance s).st = s.st := rfl
@[simp] theorem advance_n : (advance s).n = s.n := rfl
@[simp] theorem advance_lvl : (advance s).lvl = s.lvl := rfl
@[simp] theorem advance_bnd : (advance s).bnd = advanced s.bnd := rfl
@[simp] theorem advance_bud : (advance s).bud = s.bud := rfl
@[simp] theorem advance_bounded : (advance s).bounded = s.bounded := rfl
@[simp] theorem advance_termFull : (advance s).termFull = s.termFull := rfl
@[simp] theorem advance_termBudget : (advance s).termBudget = s.termBudget := rfl
@[simp] theorem advance_indWait : (advance s).indWait = s.indWait := rfl
@[simp] theorem advance_indActive : (advance s).indActive = s.indActive := rfl
@[simp] theorem advance_buf : (advance s).buf = s.buf := rfl
@[simp] theorem advance_par : (advance s).par = s.par := rfl
@[simp] theorem advance_env : (advance s).env = s.env := rfl
end

section
variable (s : State)

@[simp] theorem resetRegisters_st : (resetRegisters s).st = .idle := rfl
@[simp] theorem resetRegisters_n : (resetRegisters s).n = 0 := rfl
@[simp] theorem resetRegisters_lvl : (resetRegisters s).lvl = 0 := rfl
@[simp] theorem resetRegisters_bnd : (resetRegisters s).bnd = 0 := rfl
@[simp] theorem resetRegisters_bud : (resetRegisters s).bud = 0 := rfl
@[simp] theorem resetRegisters_bounded : (resetRegisters s).bounded = false := rfl
@[simp] theorem resetRegisters_termFull : (resetRegisters s).termFull = false := rfl
@[simp] theorem resetRegisters_termBudget : (resetRegisters s).termBudget = false := rfl
@[simp] theorem resetRegisters_indWait : (resetRegisters s).indWait = false := rfl
@[simp] theorem resetRegisters_indActive : (resetRegisters s).indActive = false := rfl
@[simp] theorem resetRegisters_buf : (resetRegisters s).buf = s.buf := rfl
@[simp] theorem resetRegisters_par : (resetRegisters s).par = s.par := rfl
@[simp] theorem resetRegisters_env : (resetRegisters s).env = s.env := rfl
end

section
variable (s : State)

@[simp] theorem beginSession_st : (beginSession s).st = .running := rfl
@[simp] theorem beginSession_n : (beginSession s).n = 0 := rfl
@[simp] theorem beginSession_lvl : (beginSession s).lvl = s.env.ports.levelIn := rfl
@[simp] theorem beginSession_bnd : (beginSession s).bnd = s.env.ports.tickIn := rfl
@[simp] theorem beginSession_bud : (beginSession s).bud = startBudget s := rfl
@[simp] theorem beginSession_bounded : (beginSession s).bounded = (s.env.ports.tmaxMs != 0) := rfl
@[simp] theorem beginSession_termFull : (beginSession s).termFull = false := rfl
@[simp] theorem beginSession_termBudget : (beginSession s).termBudget = false := rfl
@[simp] theorem beginSession_indWait : (beginSession s).indWait = true := rfl
@[simp] theorem beginSession_indActive : (beginSession s).indActive = false := rfl
@[simp] theorem beginSession_buf : (beginSession s).buf = s.buf := rfl
@[simp] theorem beginSession_par : (beginSession s).par = s.par := rfl
@[simp] theorem beginSession_env : (beginSession s).env = s.env := rfl
end

section
variable (s : State) (p : Ports) (rest : List HostEvent)

@[simp] theorem driveEdge_st : (driveEdge s p rest).st = s.st := rfl
@[simp] theorem driveEdge_n : (driveEdge s p rest).n = s.n := rfl
@[simp] theorem driveEdge_lvl : (driveEdge s p rest).lvl = s.lvl := rfl
@[simp] theorem driveEdge_bnd : (driveEdge s p rest).bnd = s.bnd := rfl
@[simp] theorem driveEdge_bud : (driveEdge s p rest).bud = s.bud := rfl
@[simp] theorem driveEdge_bounded : (driveEdge s p rest).bounded = s.bounded := rfl
@[simp] theorem driveEdge_termFull : (driveEdge s p rest).termFull = s.termFull := rfl
@[simp] theorem driveEdge_termBudget : (driveEdge s p rest).termBudget = s.termBudget := rfl
@[simp] theorem driveEdge_indWait : (driveEdge s p rest).indWait = s.indWait := rfl
@[simp] theorem driveEdge_indActive : (driveEdge s p rest).indActive = s.indActive := rfl
@[simp] theorem driveEdge_buf : (driveEdge s p rest).buf = s.buf := rfl
@[simp] theorem driveEdge_par : (driveEdge s p rest).par = s.par := rfl
@[simp] theorem driveEdge_env_ports : (driveEdge s p rest).env.ports = p := rfl
@[simp] theorem driveEdge_env_rdAddr : (driveEdge s p rest).env.rdAddr = s.env.rdAddr := rfl
@[simp] theorem driveEdge_env_pending : (driveEdge s p rest).env.pending = rest := rfl
@[simp] theorem driveEdge_env_edges : (driveEdge s p rest).env.edges = s.env.edges + 1 := rfl
@[simp] theorem driveEdge_env_rdWord : (driveEdge s p rest).env.rdWord = s.env.rdWord := rfl
@[simp] theorem driveEdge_env_time : (driveEdge s p rest).env.time = s.env.time := rfl
@[simp] theorem driveEdge_env_history : (driveEdge s p rest).env.history = s.env.history := rfl
end

section
variable (s : State) (addr : Nat) (rest : List HostEvent)

@[simp] theorem driveRead_st : (driveRead s addr rest).st = s.st := rfl
@[simp] theorem driveRead_n : (driveRead s addr rest).n = s.n := rfl
@[simp] theorem driveRead_lvl : (driveRead s addr rest).lvl = s.lvl := rfl
@[simp] theorem driveRead_bnd : (driveRead s addr rest).bnd = s.bnd := rfl
@[simp] theorem driveRead_bud : (driveRead s addr rest).bud = s.bud := rfl
@[simp] theorem driveRead_bounded : (driveRead s addr rest).bounded = s.bounded := rfl
@[simp] theorem driveRead_termFull : (driveRead s addr rest).termFull = s.termFull := rfl
@[simp] theorem driveRead_termBudget : (driveRead s addr rest).termBudget = s.termBudget := rfl
@[simp] theorem driveRead_indWait : (driveRead s addr rest).indWait = s.indWait := rfl
@[simp] theorem driveRead_indActive : (driveRead s addr rest).indActive = s.indActive := rfl
@[simp] theorem driveRead_buf : (driveRead s addr rest).buf = s.buf := rfl
@[simp] theorem driveRead_par : (driveRead s addr rest).par = s.par := rfl
@[simp] theorem driveRead_env_ports : (driveRead s addr rest).env.ports = s.env.ports := rfl
@[simp] theorem driveRead_env_rdAddr : (driveRead s addr rest).env.rdAddr = portAddr s.par addr := rfl
@[simp] theorem driveRead_env_pending : (driveRead s addr rest).env.pending = rest := rfl
@[simp] theorem driveRead_env_edges : (driveRead s addr rest).env.edges = s.env.edges := rfl
@[simp] theorem driveRead_env_rdWord : (driveRead s addr rest).env.rdWord = s.env.rdWord := rfl
@[simp] theorem driveRead_env_time : (driveRead s addr rest).env.time = s.env.time := rfl
@[simp] theorem driveRead_env_history : (driveRead s addr rest).env.history = s.env.history := rfl
end

section
variable (s : State) (rest : List HostEvent)

@[simp] theorem dropEvent_st : (dropEvent s rest).st = s.st := rfl
@[simp] theorem dropEvent_n : (dropEvent s rest).n = s.n := rfl
@[simp] theorem dropEvent_lvl : (dropEvent s rest).lvl = s.lvl := rfl
@[simp] theorem dropEvent_bnd : (dropEvent s rest).bnd = s.bnd := rfl
@[simp] theorem dropEvent_bud : (dropEvent s rest).bud = s.bud := rfl
@[simp] theorem dropEvent_bounded : (dropEvent s rest).bounded = s.bounded := rfl
@[simp] theorem dropEvent_termFull : (dropEvent s rest).termFull = s.termFull := rfl
@[simp] theorem dropEvent_termBudget : (dropEvent s rest).termBudget = s.termBudget := rfl
@[simp] theorem dropEvent_indWait : (dropEvent s rest).indWait = s.indWait := rfl
@[simp] theorem dropEvent_indActive : (dropEvent s rest).indActive = s.indActive := rfl
@[simp] theorem dropEvent_buf : (dropEvent s rest).buf = s.buf := rfl
@[simp] theorem dropEvent_par : (dropEvent s rest).par = s.par := rfl
@[simp] theorem dropEvent_env_ports : (dropEvent s rest).env.ports = s.env.ports := rfl
@[simp] theorem dropEvent_env_rdAddr : (dropEvent s rest).env.rdAddr = s.env.rdAddr := rfl
@[simp] theorem dropEvent_env_pending : (dropEvent s rest).env.pending = rest := rfl
@[simp] theorem dropEvent_env_edges : (dropEvent s rest).env.edges = s.env.edges := rfl
@[simp] theorem dropEvent_env_rdWord : (dropEvent s rest).env.rdWord = s.env.rdWord := rfl
@[simp] theorem dropEvent_env_time : (dropEvent s rest).env.time = s.env.time := rfl
@[simp] theorem dropEvent_env_history : (dropEvent s rest).env.history = s.env.history := rfl
end

section
variable (s : State) (rest : List HostEvent)

@[simp] theorem rewindReader_st : (rewindReader s rest).st = s.st := rfl
@[simp] theorem rewindReader_n : (rewindReader s rest).n = s.n := rfl
@[simp] theorem rewindReader_lvl : (rewindReader s rest).lvl = s.lvl := rfl
@[simp] theorem rewindReader_bnd : (rewindReader s rest).bnd = s.bnd := rfl
@[simp] theorem rewindReader_bud : (rewindReader s rest).bud = s.bud := rfl
@[simp] theorem rewindReader_bounded : (rewindReader s rest).bounded = s.bounded := rfl
@[simp] theorem rewindReader_termFull : (rewindReader s rest).termFull = s.termFull := rfl
@[simp] theorem rewindReader_termBudget : (rewindReader s rest).termBudget = s.termBudget := rfl
@[simp] theorem rewindReader_indWait : (rewindReader s rest).indWait = s.indWait := rfl
@[simp] theorem rewindReader_indActive : (rewindReader s rest).indActive = s.indActive := rfl
@[simp] theorem rewindReader_buf : (rewindReader s rest).buf = s.buf := rfl
@[simp] theorem rewindReader_par : (rewindReader s rest).par = s.par := rfl
@[simp] theorem rewindReader_env_ports : (rewindReader s rest).env.ports = s.env.ports := rfl
@[simp] theorem rewindReader_env_rdAddr : (rewindReader s rest).env.rdAddr = s.env.rdAddr := rfl
@[simp] theorem rewindReader_env_pending : (rewindReader s rest).env.pending = rest := rfl
@[simp] theorem rewindReader_env_edges : (rewindReader s rest).env.edges = s.env.edges := rfl
@[simp] theorem rewindReader_env_rdWord : (rewindReader s rest).env.rdWord = s.env.rdWord := rfl
@[simp] theorem rewindReader_env_time : (rewindReader s rest).env.time = 0 := rfl
@[simp] theorem rewindReader_env_history : (rewindReader s rest).env.history = [] := rfl
end

section
variable (s : State) (ticks : Nat) (level : Byte) (change : Bool)

@[simp] theorem enterSpan_st : (enterSpan s ticks level change).st = s.st := rfl
@[simp] theorem enterSpan_n : (enterSpan s ticks level change).n = s.n := rfl
@[simp] theorem enterSpan_lvl : (enterSpan s ticks level change).lvl = s.lvl := rfl
@[simp] theorem enterSpan_bnd : (enterSpan s ticks level change).bnd = s.bnd := rfl
@[simp] theorem enterSpan_bud : (enterSpan s ticks level change).bud = s.bud := rfl
@[simp] theorem enterSpan_bounded : (enterSpan s ticks level change).bounded = s.bounded := rfl
@[simp] theorem enterSpan_termFull : (enterSpan s ticks level change).termFull = s.termFull := rfl
@[simp] theorem enterSpan_termBudget : (enterSpan s ticks level change).termBudget = s.termBudget := rfl
@[simp] theorem enterSpan_indWait : (enterSpan s ticks level change).indWait = s.indWait := rfl
@[simp] theorem enterSpan_indActive : (enterSpan s ticks level change).indActive = s.indActive := rfl
@[simp] theorem enterSpan_buf : (enterSpan s ticks level change).buf = s.buf := rfl
@[simp] theorem enterSpan_par : (enterSpan s ticks level change).par = s.par := rfl
@[simp] theorem enterSpan_env_ports : (enterSpan s ticks level change).env.ports = s.env.ports := rfl
@[simp] theorem enterSpan_env_rdAddr : (enterSpan s ticks level change).env.rdAddr = s.env.rdAddr := rfl
@[simp] theorem enterSpan_env_pending : (enterSpan s ticks level change).env.pending = s.env.pending := rfl
@[simp] theorem enterSpan_env_edges : (enterSpan s ticks level change).env.edges = s.env.edges := rfl
@[simp] theorem enterSpan_env_rdWord : (enterSpan s ticks level change).env.rdWord = s.env.rdWord := rfl
@[simp] theorem enterSpan_env_time : (enterSpan s ticks level change).env.time = s.env.time + ticks := rfl
@[simp] theorem enterSpan_env_history : (enterSpan s ticks level change).env.history = s.env.history ++ [⟨s.env.time, s.env.time + ticks, level, change⟩] := rfl
end

section
variable (s : State) (n' : Nat) (bud' : Budget)

@[simp] theorem terminationTest_n : (terminationTest s n' bud').n = n' := by unfold terminationTest; split <;> rfl
@[simp] theorem terminationTest_lvl : (terminationTest s n' bud').lvl = s.lvl := by unfold terminationTest; split <;> rfl
@[simp] theorem terminationTest_bnd : (terminationTest s n' bud').bnd = s.bnd := by unfold terminationTest; split <;> rfl
@[simp] theorem terminationTest_bud : (terminationTest s n' bud').bud = bud' := by unfold terminationTest; split <;> rfl
@[simp] theorem terminationTest_bounded : (terminationTest s n' bud').bounded = s.bounded := by
  unfold terminationTest; split <;> rfl
@[simp] theorem terminationTest_buf : (terminationTest s n' bud').buf = s.buf := by unfold terminationTest; split <;> rfl
@[simp] theorem terminationTest_par : (terminationTest s n' bud').par = s.par := by unfold terminationTest; split <;> rfl
@[simp] theorem terminationTest_env : (terminationTest s n' bud').env = s.env := by unfold terminationTest; split <;> rfl
@[simp] theorem terminationTest_indWait : (terminationTest s n' bud').indWait = false := by
  unfold terminationTest; split <;> rfl
theorem terminationTest_st : (terminationTest s n' bud').st =
    if stopFull s n' || stopBudget s bud' then .terminated else s.st := by unfold terminationTest; split <;> rfl
theorem terminationTest_termFull : (terminationTest s n' bud').termFull =
    if stopFull s n' || stopBudget s bud' then stopFull s n' else s.termFull := by unfold terminationTest; split <;> rfl
theorem terminationTest_termBudget : (terminationTest s n' bud').termBudget =
    if stopFull s n' || stopBudget s bud' then stopBudget s bud' else s.termBudget := by
  unfold terminationTest; split <;> rfl
theorem terminationTest_indActive : (terminationTest s n' bud').indActive = !(stopFull s n' || stopBudget s bud') := by
  unfold terminationTest; split
  · next h => simp [h]
  · next h => simp [h]
end

end Sys2Proof.Machine
end

