-- ==== Sys2Proof/Laws/Ops.lean ====
section
/-! SUPPORT. One lemma per shared operation that says once everything the operation can do, for proofs to cite instead of
unfolding it. -/

namespace Sys2Proof.Machine

/-- An internal read of a word that has been written finds it. -/
theorem bufRead_of_readWord {s : State} {i : Nat} {w : Word} (h : Memory.readWord s.buf i = some w) : bufRead s i = w := by
  unfold Memory.readWord at h
  split at h
  · next h0 h1 h2 h3 => simpa [bufRead, bufByte, h0, h1, h2, h3] using h
  · cases h

/-- `BufWrite` stores the word where the index exists and answers nothing elsewhere (R60, R68). -/
theorem bufWrite_eq_some {s t : State} {i : Nat} {w : Word} :
    bufWrite s i w = some t ↔ i < s.par.nmax ∧ t = { s with buf := Memory.writeWord s.buf i w } := by
  unfold bufWrite
  split
  · next h => simp [h, eq_comm]
  · next h => simp [h]

/-- An append on a buffer with room stores the word at `n` and raises `n` (R131, R133). -/
theorem appendRecord_of_room {s : State} (w : Word) (h : s.n < s.par.nmax) :
    appendRecord s w = .appended { s with buf := Memory.writeWord s.buf s.n w, n := s.n + 1 } := by
  have hf : full s = false := by simp [full]; omega
  simp [appendRecord, hf, bufWrite, h]

/-- Everything an append can answer (R131, R133, R135). -/
theorem appendRecord_cases (s : State) (w : Word) :
    (s.n < s.par.nmax ∧
      appendRecord s w = .appended { s with buf := Memory.writeWord s.buf s.n w, n := s.n + 1 }) ∨
    (s.n = s.par.nmax ∧ appendRecord s w = .refused) ∨ (s.par.nmax < s.n ∧ appendRecord s w = .noSuchIndex) := by
  rcases lt_trichotomy s.n s.par.nmax with h | h | h
  · exact .inl ⟨h, appendRecord_of_room w h⟩
  · exact .inr (.inl ⟨h, by simp [appendRecord, full, h]⟩)
  · refine .inr (.inr ⟨h, ?_⟩)
    have hf : full s = false := by simp [full]; omega
    have : ¬ s.n < s.par.nmax := by omega
    simp [appendRecord, hf, bufWrite, this]

/-- A merge into the last record of a buffer with room (R134). -/
theorem recordTimeoutMerge_of_room {s : State} (h0 : 0 < s.n) (h : s.n < s.par.nmax) :
    recordTimeoutMerge s =
      .merged { s with buf := Memory.writeWord s.buf (s.n - 1) (bumpCount (bufRead s (s.n - 1))) } := by
  have hf : full s = false := by simp [full]; omega
  unfold recordTimeoutMerge
  rw [hf]
  cases hn : s.n with
  | zero => omega
  | succ k =>
    have : k < s.par.nmax := by omega
    simp [bufWrite, this, hn]

/-- Everything a merge can answer (R134, R135). -/
theorem recordTimeoutMerge_cases (s : State) :
    (0 < s.n ∧ s.n < s.par.nmax ∧ recordTimeoutMerge s =
      .merged { s with buf := Memory.writeWord s.buf (s.n - 1) (bumpCount (bufRead s (s.n - 1))) }) ∨
    (s.n = s.par.nmax ∧ recordTimeoutMerge s = .refused) ∨
    ((s.n = 0 ∨ s.par.nmax < s.n) ∧ recordTimeoutMerge s = .noSuchIndex) := by
  by_cases hf : s.n = s.par.nmax
  · exact .inr (.inl ⟨hf, by simp [recordTimeoutMerge, full, hf]⟩)
  have hff : full s = false := by simp [full, hf]
  by_cases h0 : s.n = 0
  · exact .inr (.inr ⟨.inl h0, by simp [recordTimeoutMerge, hff, h0]⟩)
  by_cases h : s.n < s.par.nmax
  · exact .inl ⟨by omega, h, recordTimeoutMerge_of_room (by omega) h⟩
  refine .inr (.inr ⟨.inr (by omega), ?_⟩)
  unfold recordTimeoutMerge
  rw [hff]
  cases hn : s.n with
  | zero => omega
  | succ k =>
    have : ¬ k < s.par.nmax := by omega
    simp [bufWrite, this]

/-- TERMINATION_TEST either ends the session with its two flags or lets it run on (R158). -/
theorem terminationTest_cases (s : State) (n' : Nat) (bud' : Budget) :
    ((n' = s.par.nmax ∨ (s.bounded = true ∧ bud'.toInt < 0)) ∧
      terminationTest s n' bud' =
        { s with
          n := n', bud := bud', st := .terminated, termFull := n' == s.par.nmax,
          termBudget := s.bounded && decide (bud'.toInt < 0), indWait := false, indActive := false }) ∨
    (n' ≠ s.par.nmax ∧ ¬(s.bounded = true ∧ bud'.toInt < 0) ∧
      terminationTest s n' bud' = { s with n := n', bud := bud', indWait := false, indActive := true }) := by
  by_cases h : n' = s.par.nmax ∨ (s.bounded = true ∧ bud'.toInt < 0)
  · left
    have hb : (stopFull s n' || stopBudget s bud') = true := by simpa [stopFull, stopBudget] using h
    exact ⟨h, by rw [terminationTest, if_pos hb]; rfl⟩
  · right
    have hb : ¬ (stopFull s n' || stopBudget s bud') = true := by simpa [stopFull, stopBudget] using h
    rw [not_or] at h
    exact ⟨h.1, h.2, by rw [terminationTest, if_neg hb]⟩

/-- A commit that appended or merged ends in TERMINATION_TEST on the new count and budget (R155 to R158). -/
theorem finishCommit_appended (s s' : State) (ticks : Budget) (upd : State → State) :
    finishCommit s (.appended s') ticks upd = .next (terminationTest (upd s') s'.n (s.bud - ticks)) := rfl
theorem finishCommit_merged (s s' : State) (ticks : Budget) (upd : State → State) :
    finishCommit s (.merged s') ticks upd = .next (terminationTest (upd s') s'.n (s.bud - ticks)) := rfl
theorem finishCommit_refused (s : State) (ticks : Budget) (upd : State → State) :
    finishCommit s .refused ticks upd = .next (terminationTest s s.n s.bud) := rfl
theorem finishCommit_noSuchIndex (s : State) (ticks : Budget) (upd : State → State) :
    finishCommit s .noSuchIndex ticks upd = .fault .bufferIndex := rfl

/-- Every event but a rewind runs an instruction, and a fetch changes nothing but the environment. -/
theorem fetch_frame (s : State) :
    (∃ i s', fetch s = .run i s' ∧ s' = { s with env := s'.env }) ∨ (∃ s', fetch s = .quiet s' ∧ s' = { s with env := s'.env }) := by
  unfold fetch
  split
  · exact .inl ⟨_, _, rfl, rfl⟩
  · exact .inl ⟨_, _, rfl, rfl⟩
  · exact .inl ⟨_, _, rfl, rfl⟩
  · exact .inl ⟨_, _, rfl, rfl⟩
  · exact .inl ⟨_, _, rfl, rfl⟩
  · exact .inr ⟨_, rfl, rfl⟩

/-- A scripted edge is one step of the operation its selector picks (R150). -/
theorem step_clock {s : State} {p : Ports} {rest : List HostEvent} (h : s.env.pending = .clock p :: rest) :
    step s = exec (decodeSelector (selector (driveEdge s p rest))) (driveEdge s p rest) := by
  simp [step, fetch, h, fetchEdge]

/-- A run of any machine whose first step gives a state goes on from it. -/
theorem core_run_next (M : Host.Core) (k : Nat) {s s' : M.State} (h : M.step s = .next s') : M.run (k + 1) s = M.run k s' := by
  rw [Host.Core.run, h]

/-- A run of any machine that ends in a state took a first step that gave one. -/
theorem core_step_of_run (M : Host.Core) (k : Nat) {s t : M.State} (h : M.run (k + 1) s = .next t) :
    ∃ s', M.step s = .next s' ∧ M.run k s' = .next t := by
  rw [Host.Core.run] at h
  split at h
  · next s' hs => exact ⟨s', hs, h⟩
  · cases h
  · cases h

theorem runSteps_zero (s : State) : runSteps 0 s = .next s := rfl
theorem runSteps_succ (k : Nat) {s s' : State} (h : step s = .next s') : runSteps (k + 1) s = runSteps k s' :=
  core_run_next Sys2Proof.core k h
theorem step_of_runSteps_succ {k : Nat} {s t : State} (h : runSteps (k + 1) s = .next t) :
    ∃ s', step s = .next s' ∧ runSteps k s' = .next t :=
  core_step_of_run Sys2Proof.core k h

/-- The memory of the reset state is in its canonical form. -/
theorem reset_memory_wf : Memory.wf State.reset.buf = true := rfl

/-- A `BufWrite` keeps the canonical form. -/
theorem bufWrite_keeps_wf {s t : State} {i : Nat} {w : Word} (h : bufWrite s i w = some t) (hs : Memory.wf s.buf = true) :
    Memory.wf t.buf = true := by
  obtain ⟨-, rfl⟩ := bufWrite_eq_some.1 h
  exact Memory.wf_writeWord _ _ _ hs

end Sys2Proof.Machine
end

