-- ==== Sys2Proof/Laws/Edge.lean ====
section
/-! SUPPORT. Everything a clock edge can do, said once (43_session.md rule R150): the operation, the conditions that select it and
the state it leaves. -/

namespace Sys2Proof.Machine

/-- The state that RUN_CHANGE leaves when the buffer has room (R155). -/
def changed (s : State) : State :=
  terminationTest
    { s with
      buf := Memory.writeWord s.buf s.n (encShort (elapsed s) s.lvl), n := s.n + 1, lvl := s.env.ports.levelIn,
      bnd := s.env.ports.tickIn }
    (s.n + 1) (s.bud - intervalTicks (elapsed s))

/-- The state that RUN_TMO_APPEND leaves when the buffer has room (R156). -/
def timedOut (s : State) : State :=
  terminationTest
    { s with buf := Memory.writeWord s.buf s.n (encLong 1 s.lvl), n := s.n + 1, bnd := advanced s.bnd }
    (s.n + 1) (s.bud - unitTicks)

/-- The state that RUN_TMO_MERGE leaves when there is a last record (R157). -/
def mergedInto (s : State) : State :=
  terminationTest
    { s with
      buf := Memory.writeWord s.buf (s.n - 1) (bumpCount (bufRead s (s.n - 1))), bnd := advanced s.bnd }
    s.n (s.bud - unitTicks)

theorem execRunChange_of_room {s : State} (h : s.n < s.par.nmax) : execRunChange s = .next (changed s) := by
  rw [execRunChange, recordChange, appendRecord_of_room _ h, finishCommit_appended]
  rfl

theorem execRunTmoAppend_of_room {s : State} (h : s.n < s.par.nmax) : execRunTmoAppend s = .next (timedOut s) := by
  rw [execRunTmoAppend, recordTimeoutAppend, appendRecord_of_room _ h, finishCommit_appended]
  rfl

theorem execRunTmoMerge_of_room {s : State} (h0 : 0 < s.n) (h : s.n < s.par.nmax) :
    execRunTmoMerge s = .next (mergedInto s) := by
  rw [execRunTmoMerge, recordTimeoutMerge_of_room h0 h, finishCommit_merged]
  rfl

/-- Beyond `NMAX`, which no state reached from reset is, a commit has no place for its word (log 8). -/
theorem execRunChange_of_beyond {s : State} (h : s.par.nmax < s.n) : execRunChange s = .fault .bufferIndex := by
  rcases appendRecord_cases s (encShort (elapsed s) s.lvl) with ⟨h', -⟩ | ⟨h', -⟩ | ⟨-, hr⟩
  · omega
  · omega
  · rw [execRunChange, recordChange, hr, finishCommit_noSuchIndex]

theorem execRunTmoAppend_of_beyond {s : State} (h : s.par.nmax < s.n) : execRunTmoAppend s = .fault .bufferIndex := by
  rcases appendRecord_cases s (encLong 1 s.lvl) with ⟨h', -⟩ | ⟨h', -⟩ | ⟨-, hr⟩
  · omega
  · omega
  · rw [execRunTmoAppend, recordTimeoutAppend, hr, finishCommit_noSuchIndex]

theorem execRunTmoMerge_of_beyond {s : State} (h : s.par.nmax < s.n) : execRunTmoMerge s = .fault .bufferIndex := by
  rcases recordTimeoutMerge_cases s with ⟨-, h', -⟩ | ⟨h', -⟩ | ⟨-, hr⟩
  · omega
  · omega
  · rw [execRunTmoMerge, hr, finishCommit_noSuchIndex]

/-- A merge is selected only where there is a record to merge into (R132). -/
theorem pos_of_mrg {s : State} (h : mrg s = true) : 0 < s.n := by
  simp only [mrg, Bool.and_eq_true, decide_eq_true_eq] at h
  exact h.1

/-- The operation of a clock edge as one chain of conditions, in the priority order of R150 and R203. -/
theorem edge_eq (s : State) :
    exec (decodeSelector (selector s)) s =
      if s.env.ports.rst then .next (resetRegisters s)
      else if s.st = .running then
        if full s then .next (terminationTest s s.n s.bud)
        else if tmo s then (if mrg s then execRunTmoMerge s else execRunTmoAppend s)
        else if chg s then execRunChange s
        else .next (setIndicators s true false)
      else if s.env.ports.start then .next (beginSession s)
      else .next (setIndicators s false false) := by
  rw [selector, decodeSelector_packSelector]
  cases s.env.ports.rst with
  | true => rfl
  | false =>
    cases s.st with
    | idle => cases s.env.ports.start <;> rfl
    | terminated => cases s.env.ports.start <;> rfl
    | running => cases full s <;> cases tmo s <;> cases mrg s <;> cases chg s <;> rfl

/-- Everything that a clock edge can select and do (R90, R150). -/
theorem edge_cases (s : State) :
    (s.env.ports.rst = true ∧ (decodeSelector (selector s)).operation = some .reset ∧
      exec (decodeSelector (selector s)) s = .next (resetRegisters s)) ∨
    (s.env.ports.rst = false ∧ s.st ≠ .running ∧ s.env.ports.start = true ∧
      (decodeSelector (selector s)).operation = some .start ∧
      exec (decodeSelector (selector s)) s = .next (beginSession s)) ∨
    (s.env.ports.rst = false ∧ s.st = .idle ∧ s.env.ports.start = false ∧
      (decodeSelector (selector s)).operation = some .idleHold ∧
      exec (decodeSelector (selector s)) s = .next (setIndicators s false false)) ∨
    (s.env.ports.rst = false ∧ s.st = .terminated ∧ s.env.ports.start = false ∧
      (decodeSelector (selector s)).operation = some .termHold ∧
      exec (decodeSelector (selector s)) s = .next (setIndicators s false false)) ∨
    (s.env.ports.rst = false ∧ s.st = .running ∧ s.n = s.par.nmax ∧
      (decodeSelector (selector s)).operation = some .runFull ∧
      exec (decodeSelector (selector s)) s = .next (terminationTest s s.n s.bud)) ∨
    (s.env.ports.rst = false ∧ s.st = .running ∧ s.n ≠ s.par.nmax ∧ tmo s = true ∧ mrg s = true ∧
      (decodeSelector (selector s)).operation = some .runTmoMerge ∧
      exec (decodeSelector (selector s)) s = execRunTmoMerge s) ∨
    (s.env.ports.rst = false ∧ s.st = .running ∧ s.n ≠ s.par.nmax ∧ tmo s = true ∧ mrg s = false ∧
      (decodeSelector (selector s)).operation = some .runTmoAppend ∧
      exec (decodeSelector (selector s)) s = execRunTmoAppend s) ∨
    (s.env.ports.rst = false ∧ s.st = .running ∧ s.n ≠ s.par.nmax ∧ tmo s = false ∧ chg s = true ∧
      (decodeSelector (selector s)).operation = some .runChange ∧
      exec (decodeSelector (selector s)) s = execRunChange s) ∨
    (s.env.ports.rst = false ∧ s.st = .running ∧ s.n ≠ s.par.nmax ∧ tmo s = false ∧ chg s = false ∧
      (decodeSelector (selector s)).operation = some .runWait ∧
      exec (decodeSelector (selector s)) s = .next (setIndicators s true false)) := by
  rw [selector, decodeSelector_packSelector]
  cases hr : s.env.ports.rst with
  | true => exact .inl ⟨rfl, rfl, rfl⟩
  | false =>
    right
    cases hst : s.st with
    | idle =>
      cases hs : s.env.ports.start with
      | true => exact .inl ⟨rfl, by simp, rfl, rfl, rfl⟩
      | false => exact .inr (.inl ⟨rfl, rfl, rfl, rfl, rfl⟩)
    | terminated =>
      cases hs : s.env.ports.start with
      | true => exact .inl ⟨rfl, by simp, rfl, rfl, rfl⟩
      | false => exact .inr (.inr (.inl ⟨rfl, rfl, rfl, rfl, rfl⟩))
    | running =>
      right; right; right
      cases hf : full s with
      | true => exact .inl ⟨rfl, rfl, by simpa [full] using hf, rfl, rfl⟩
      | false =>
        have hn : s.n ≠ s.par.nmax := by simpa [full] using hf
        right
        cases ht : tmo s with
        | true =>
          cases hm : mrg s with
          | true => exact .inl ⟨rfl, rfl, hn, rfl, rfl, rfl, rfl⟩
          | false => exact .inr (.inl ⟨rfl, rfl, hn, rfl, rfl, rfl, rfl⟩)
        | false =>
          right; right
          cases hc : chg s with
          | true => exact .inl ⟨rfl, rfl, hn, rfl, rfl, rfl, rfl⟩
          | false => exact .inr ⟨rfl, rfl, hn, rfl, rfl, rfl, rfl⟩

end Sys2Proof.Machine
end

