-- ==== Sys2Proof/Laws/PerInstr.lean ====
section
/-! SUPPORT. The per-instruction family EncodingMatchesRow: the encoding of every instruction has its opcode-table row's width and
its row's fixed bits (30_encoding.md rules R80, R90; 44_inspect.md rule R190). -/

namespace Sys2Proof.Laws

/-- A row's width in bits and its fixed bits: a word belongs to the row when `word & mask == value`. -/
structure EncodingRow where
  bits : Nat
  value : Nat
  mask : Nat
deriving DecidableEq, Repr

/-- The row of spec/opcode_table.json that a constructor stands for. -/
def encodingRow : Instr → EncodingRow
  | .reset _ _ _ _ _ _ => ⟨8, 0x80, 0x80⟩
  | .start _ _ _ _ _ => ⟨8, 0x10, 0xB0⟩
  | .idleHold _ _ _ _ => ⟨8, 0x00, 0xF0⟩
  | .termHold _ _ _ _ => ⟨8, 0x40, 0xF0⟩
  | .runFull _ _ _ _ => ⟨8, 0x21, 0xE1⟩
  | .runTmoMerge _ _ => ⟨8, 0x2A, 0xEB⟩
  | .runTmoAppend _ _ => ⟨8, 0x28, 0xEB⟩
  | .runChange _ _ => ⟨8, 0x24, 0xED⟩
  | .runWait _ _ => ⟨8, 0x20, 0xED⟩
  | .reservedSt11 _ _ _ _ _ => ⟨8, 0x60, 0xE0⟩
  | .recShort _ _ => ⟨32, 0x00000000, 0x80000000⟩
  | .recLong _ _ => ⟨32, 0x80000000, 0x80000000⟩
  | .read => ⟨0, 0x0, 0x0⟩

/-- The number that bytes make, the first byte lowest. -/
def numberOf : List Byte → Nat
  | [] => 0
  | b :: rest => b.toNat + 256 * numberOf rest

/-- The encoding of an instruction is as wide as its row and has the row's fixed bits. -/
def EncodingMatchesRow.Statement (i : Instr) : Prop :=
  8 * (encode i).length = (encodingRow i).bits ∧
    numberOf (encode i) &&& (encodingRow i).mask = (encodingRow i).value

theorem EncodingMatchesRow.reset (st : BitVec 2) (start tmo chg mrg full : Bool) :
    EncodingMatchesRow.Statement (.reset st start tmo chg mrg full) := by
  revert st start tmo chg mrg full
  unfold EncodingMatchesRow.Statement
  decide

theorem EncodingMatchesRow.start (stHigh tmo chg mrg full : Bool) :
    EncodingMatchesRow.Statement (.start stHigh tmo chg mrg full) := by
  revert stHigh tmo chg mrg full
  unfold EncodingMatchesRow.Statement
  decide

theorem EncodingMatchesRow.idleHold (tmo chg mrg full : Bool) :
    EncodingMatchesRow.Statement (.idleHold tmo chg mrg full) := by
  revert tmo chg mrg full
  unfold EncodingMatchesRow.Statement
  decide

theorem EncodingMatchesRow.termHold (tmo chg mrg full : Bool) :
    EncodingMatchesRow.Statement (.termHold tmo chg mrg full) := by
  revert tmo chg mrg full
  unfold EncodingMatchesRow.Statement
  decide

theorem EncodingMatchesRow.runFull (start tmo chg mrg : Bool) :
    EncodingMatchesRow.Statement (.runFull start tmo chg mrg) := by
  revert start tmo chg mrg
  unfold EncodingMatchesRow.Statement
  decide

theorem EncodingMatchesRow.runTmoMerge (start chg : Bool) : EncodingMatchesRow.Statement (.runTmoMerge start chg) := by
  revert start chg
  unfold EncodingMatchesRow.Statement
  decide

theorem EncodingMatchesRow.runTmoAppend (start chg : Bool) : EncodingMatchesRow.Statement (.runTmoAppend start chg) := by
  revert start chg
  unfold EncodingMatchesRow.Statement
  decide

theorem EncodingMatchesRow.runChange (start mrg : Bool) : EncodingMatchesRow.Statement (.runChange start mrg) := by
  revert start mrg
  unfold EncodingMatchesRow.Statement
  decide

theorem EncodingMatchesRow.runWait (start mrg : Bool) : EncodingMatchesRow.Statement (.runWait start mrg) := by
  revert start mrg
  unfold EncodingMatchesRow.Statement
  decide

theorem EncodingMatchesRow.reservedSt11 (start tmo chg mrg full : Bool) :
    EncodingMatchesRow.Statement (.reservedSt11 start tmo chg mrg full) := by
  revert start tmo chg mrg full
  unfold EncodingMatchesRow.Statement
  decide

/-- The four lanes of a word make its number (R64). -/
theorem numberOf_lanes (w : Word) : numberOf [lane w 0, lane w 1, lane w 2, lane w 3] = w.toNat := by
  have := w.isLt
  simp only [numberOf, lane, BitVec.extractLsb'_toNat, Nat.shiftRight_eq_div_pow]
  omega

/-- The format bit of a packed record, as a number (R80). -/
theorem formatBit_packRecord (fmt : Bool) (cnt : Count) (smp : Byte) :
    (packRecord fmt cnt smp).toNat &&& 0x80000000 = if fmt then 0x80000000 else 0 := by
  have h : (packRecord fmt cnt smp).toNat &&& 0x80000000 = (packRecord fmt cnt smp &&& 0x80000000#32).toNat := rfl
  rw [h]
  have hw : packRecord fmt cnt smp &&& 0x80000000#32 = if fmt then 0x80000000#32 else 0#32 := by
    apply BitVec.eq_of_getLsbD_eq
    intro i hi
    have hb : (0x80000000#32).getLsbD i = decide (i = 31) := by
      revert i
      decide
    rw [BitVec.getLsbD_and, hb, getLsbD_packRecord]
    by_cases h31 : i = 31
    · subst h31
      cases fmt <;> simp
    · cases fmt <;> simp [h31, hb]
  rw [hw]
  cases fmt <;> rfl

theorem EncodingMatchesRow.recShort (cnt : Count) (smp : Byte) : EncodingMatchesRow.Statement (.recShort cnt smp) :=
  ⟨rfl, by
    show numberOf [lane (packRecord false cnt smp) 0, lane (packRecord false cnt smp) 1, lane (packRecord false cnt smp) 2,
      lane (packRecord false cnt smp) 3] &&& 0x80000000 = 0
    rw [numberOf_lanes, formatBit_packRecord]
    rfl⟩

theorem EncodingMatchesRow.recLong (cnt : Count) (smp : Byte) : EncodingMatchesRow.Statement (.recLong cnt smp) :=
  ⟨rfl, by
    show numberOf [lane (packRecord true cnt smp) 0, lane (packRecord true cnt smp) 1, lane (packRecord true cnt smp) 2,
      lane (packRecord true cnt smp) 3] &&& 0x80000000 = 0x80000000
    rw [numberOf_lanes, formatBit_packRecord]
    rfl⟩

theorem EncodingMatchesRow.read : EncodingMatchesRow.Statement .read := ⟨rfl, rfl⟩

end Sys2Proof.Laws
end

