-- ==== Sys2Proof/Laws/Run.lean ====
section
/-! SUPPORT. What one step can do, whatever the host's next event is, and how runs compose (43_session.md rules R150, R167). -/

namespace Sys2Proof.Machine

/-- The two kinds of step: a clock edge of its selector's operation at a state whose environment alone was touched, a forced edge
that resets, or an event of the host's reader, which changes the environment alone (log 3, log 10). -/
theorem step_cases (s t : State) (h : step s = .next t) :
    (∃ u, u = { s with env := u.env } ∧ exec (decodeSelector (selector u)) u = .next t) ∨
    (∃ u, u = { s with env := u.env } ∧ t = resetRegisters u) ∨ t = { s with env := t.env } := by
  unfold step fetch at h
  split at h
  · next i u hf =>
    split at hf
    · cases hf; exact .inl ⟨_, rfl, h⟩
    · cases hf; exact .inl ⟨_, rfl, h⟩
    · next p rest _ =>
      cases hf
      rw [forcedSelector, decodeSelector_packSelector] at h
      split at h
      · cases h; exact .inr (.inl ⟨driveEdge s p rest, rfl, rfl⟩)
      · simp at h; cases h
    · cases hf; cases h; exact .inr (.inr rfl)
    · cases hf
      unfold decodeRecord at h
      split at h
      · simp only [exec, execRecLong] at h
        split at h
        · cases h; exact .inr (.inr rfl)
        · cases h
      · simp only [exec, execRecShort] at h
        split at h
        · cases h; exact .inr (.inr rfl)
        · cases h
    · cases hf
  · next u hf =>
    split at hf <;> cases hf
    cases h; exact .inr (.inr rfl)

/-- An edge operation writes neither the parameters nor the environment. -/
theorem edge_frame {s t : State} (h : exec (decodeSelector (selector s)) s = .next t) : t.env = s.env ∧ t.par = s.par := by
  rcases edge_cases s with hh | hh | hh | hh | hh | hh | hh | hh | hh
  · rw [hh.2.2] at h; cases h; simp
  · rw [hh.2.2.2.2] at h; cases h; simp
  · rw [hh.2.2.2.2] at h; cases h; simp
  · rw [hh.2.2.2.2] at h; cases h; simp
  · rw [hh.2.2.2.2] at h; cases h; simp
  · obtain ⟨-, -, hn, -, hm, -, hx⟩ := hh
    rw [hx] at h
    rcases Nat.lt_or_gt_of_ne hn with hr | hr
    · rw [execRunTmoMerge_of_room (pos_of_mrg hm) hr] at h; cases h; simp [mergedInto]
    · rw [execRunTmoMerge_of_beyond hr] at h; cases h
  · obtain ⟨-, -, hn, -, hm, -, hx⟩ := hh
    rw [hx] at h
    rcases Nat.lt_or_gt_of_ne hn with hr | hr
    · rw [execRunTmoAppend_of_room hr] at h; cases h; simp [timedOut]
    · rw [execRunTmoAppend_of_beyond hr] at h; cases h
  · obtain ⟨-, -, hn, -, hm, -, hx⟩ := hh
    rw [hx] at h
    rcases Nat.lt_or_gt_of_ne hn with hr | hr
    · rw [execRunChange_of_room hr] at h; cases h; simp [changed]
    · rw [execRunChange_of_beyond hr] at h; cases h
  · obtain ⟨-, -, hn, -, hm, -, hx⟩ := hh
    rw [hx] at h; cases h; simp

/-- TERMINATION_TEST looks at neither the environment, the boundary, the level nor the buffer. -/
theorem terminationTest_env_irrelevant (s : State) (e : Environment) (n' : Nat) (b : Budget) :
    terminationTest { s with env := e } n' b = { terminationTest s n' b with env := e } := by
  rcases terminationTest_cases s n' b with ⟨h, ht⟩ | ⟨h, h', ht⟩
  all_goals
    rcases terminationTest_cases { s with env := e } n' b with ⟨g, gt⟩ | ⟨g, g', gt⟩
    · rw [ht, gt]
      try tauto
    · rw [ht, gt]
      try tauto

/-- Two states with the same count and the same written records have the same records. -/
theorem records_congr {s t : State} (hn : t.n = s.n)
    (h : ∀ i < s.n, ∃ w, Memory.readWord s.buf i = some w ∧ Memory.readWord t.buf i = some w) : records t = records s := by
  unfold records
  rw [hn]
  apply List.map_congr_left
  intro i hi
  obtain ⟨w, h1, h2⟩ := h i (by simpa using hi)
  rw [bufRead_of_readWord h1, bufRead_of_readWord h2]

/-- Runs compose. -/
theorem runSteps_add (a b : Nat) : ∀ {s t : State}, runSteps a s = .next t → runSteps (a + b) s = runSteps b t := by
  induction a with
  | zero => intro s t h; cases h; simp
  | succ a ih =>
    intro s t h
    obtain ⟨u, hu, h⟩ := step_of_runSteps_succ h
    rw [show a + 1 + b = (a + b) + 1 by omega, runSteps_succ _ hu, ih h]

end Sys2Proof.Machine
end

