-- ==== Sys2Proof/Tests/Slice0.lean ====
section
/-! SUPPORT. The model's own tests: words written out from the encodings of 30_encoding.md, single steps with the vectors of
95_test_vectors.md, ill-formed terms, and for every statement with hypotheses a concrete state that meets them. -/

namespace Sys2Proof.Tests

open Sys2Proof Sys2Proof.Machine

/-! ### Decoding: words written out from R80, R89 and R90 -/

/-- `{rst, st, start, tmo, chg, mrg, full} = 1 10 1 1 1 0 1`, vector V-S4. -/
theorem test_decode_reset : decodeTableWord 8 0b11011101 = some (.reset 0b10 true true true false true) := by decide
/-- `0 00 1 1 1 0 0`, vector V-S1. -/
theorem test_decode_start : decodeTableWord 8 0b00011100 = some (.start false true true false false) := by decide
/-- `0 10 1 1 1 0 1`, vector V-S3: START from TERMINATED. -/
theorem test_decode_start_terminated : decodeTableWord 8 0b01011101 = some (.start true true true false true) := by decide
/-- `0 00 0 1 1 0 0`, vector V-S5. -/
theorem test_decode_idleHold : decodeTableWord 8 0b00001100 = some (.idleHold true true false false) := by decide
/-- `0 10 0 1 1 0 1`, vector V-S21. -/
theorem test_decode_termHold : decodeTableWord 8 0b01001101 = some (.termHold true true false true) := by decide
/-- `0 01 0 0 1 0 1`, vector V-S20. -/
theorem test_decode_runFull : decodeTableWord 8 0b00100101 = some (.runFull false false true false) := by decide
/-- `0 01 0 1 1 1 0`, program P7. -/
theorem test_decode_runTmoMerge : decodeTableWord 8 0b00101110 = some (.runTmoMerge false true) := by decide
/-- `0 01 0 1 1 0 0`, vector V-S12. -/
theorem test_decode_runTmoAppend : decodeTableWord 8 0b00101100 = some (.runTmoAppend false true) := by decide
/-- `0 01 1 0 1 1 0`, program P4. -/
theorem test_decode_runChange : decodeTableWord 8 0b00110110 = some (.runChange true true) := by decide
/-- `0 01 1 0 0 1 0`, vector V-S6. -/
theorem test_decode_runWait : decodeTableWord 8 0b00110010 = some (.runWait true true) := by decide
/-- `0 11 0 0 0 0 1`, the reserved row of R91. -/
theorem test_decode_reservedSt11 : decodeTableWord 8 0b01100001 = some (.reservedSt11 false false false false true) := by decide
/-- `0x00000501`, section 1.1: short, 5 ticks at level `0x01`. -/
theorem test_decode_recShort : decodeTableWord 32 0x00000501 = some (.recShort 5 0x01) := by decide
/-- `0xFFFFFE55`, section 2.3: long, `0x7FFFFE` units at level `0x55`. -/
theorem test_decode_recLong : decodeTableWord 32 0xFFFFFE55 = some (.recLong 0x7FFFFE 0x55) := by decide
/-- READ is selected by no bits (R190). -/
theorem test_decode_read : decodeTableWord 0 0 = some .read := by decide
/-- No format is 16 bits long (R87, R89): refused by name. -/
theorem test_decode_rejects_length : decode [0x20, 0x00] = .rejected (.noFormatOfLength 2) := by decide

/-- The encoder's words, from section 1.1: `0x80000300` lies in memory lowest lane first (R64). -/
theorem test_encode_recLong : encode (.recLong 3 0x00) = [0x00, 0x03, 0x00, 0x80] := by decide
/-- The selector of P4's step 5. -/
theorem test_encode_runChange : encode (.runChange true true) = [0x36] := by decide

/-! ### Ill-formed terms (R85, R91) -/

theorem test_illFormed_recShort : wellFormed (.recShort 0 0xAB) = false := by decide
theorem test_illFormed_recLong : wellFormed (.recLong 0 0x00) = false := by decide
theorem test_illFormed_reservedSt11 : wellFormed (.reservedSt11 true true true true true) = false := by decide
theorem test_wellFormed_recLong : wellFormed (.recLong 0x7FFFFF 0xFF) = true := by decide

/-! ### Small states -/

/-- A buffer with these words from index 0 on. -/
def wordsFrom : Nat → List Word → Memory
  | _, [] => []
  | i, w :: rest => Memory.writeWord (wordsFrom (i + 1) rest) i w

/-- A state of a machine with `NMAX = nmax` and `TICKS_PER_MS = tpm` and the host's events `events` to come; what is not given is
as after RESET. -/
def stateOf (nmax tpm : Nat) (st : SessionState) (ws : List Word) (lvl : Byte) (bnd : Tick) (bud : Int) (bounded : Bool)
    (events : List HostEvent) : State :=
  { State.resetWith ⟨nmax, tpm, 0⟩ with
    st := st, n := ws.length, lvl := lvl, bnd := bnd, bud := BitVec.ofInt 64 bud, bounded := bounded, buf := wordsFrom 0 ws,
    env := { Environment.initial with pending := events } }

/-- The registers an outcome leaves, with `bud` as an integer; none for a stop. -/
def registersOf : Host.Outcome State Fault Refusal → Option (SessionState × Nat × Byte × Tick × Int)
  | .next s => some (s.st, s.n, s.lvl, s.bnd, s.bud.toInt)
  | .fault _ => none
  | .refused _ => none

/-- The flags an outcome leaves: `term_full`, `term_budget`, `ind_wait`, `ind_active`. -/
def flagsOf : Host.Outcome State Fault Refusal → Option (Bool × Bool × Bool × Bool)
  | .next s => some (s.termFull, s.termBudget, s.indWait, s.indActive)
  | .fault _ => none
  | .refused _ => none

/-- The records an outcome leaves. -/
def recordsOf : Host.Outcome State Fault Refusal → Option (List (Option Word))
  | .next s => some ((List.range s.n).map (Memory.readWord s.buf))
  | .fault _ => none
  | .refused _ => none

/-- The word the reader holds after an outcome, and its history. -/
def readerOf : Host.Outcome State Fault Refusal → Option (Word × Nat × List Span)
  | .next s => some (s.env.rdWord, s.env.time, s.env.history)
  | .fault _ => none
  | .refused _ => none

/-- Why an outcome refuses. -/
def refusalOf : Host.Outcome State Fault Refusal → Option Refusal
  | .next _ => none
  | .fault _ => none
  | .refused r => some r

/-- Why an outcome faults. -/
def faultOf : Host.Outcome State Fault Refusal → Option Fault
  | .next _ => none
  | .fault f => some f
  | .refused _ => none

/-! ### Single steps: the vectors of 95_test_vectors.md section 2.5 -/

/-- V-S4: RESET over START. -/
theorem test_reset :
    registersOf (step (stateOf 2 1 .terminated [0x501, 0xA02] 0x03 0x0000F1 (-15) false [.clock ⟨true, true, 5, 0x400, 0x09⟩])) =
      some (.idle, 0, 0x00, 0x000000, 0) := by decide
/-- V-S22: the word of the aborted session stays, `n` does not cover it. -/
theorem test_reset_running :
    registersOf (step (stateOf 4 1 .running [0x80000111] 0x11 0x000005 3 true [stimRst])) =
      some (.idle, 0, 0x00, 0x000000, 0) := by decide
/-- V-S2: the largest budget. -/
theorem test_start :
    registersOf (step (stateOf 4 (2 ^ 30) .idle [] 0 0 0 false [stimGo 0xFFFFFFFF 0x000000 0x00])) =
      some (.running, 0, 0x00, 0x000000, 4611686017353646080) := by decide
/-- V-S1: the flags after START. -/
theorem test_start_flags :
    flagsOf (step (stateOf 4 1000 .idle [] 0 0 0 false [stimGo 10 0x000010 0x55])) = some (false, false, true, false) := by
  decide
/-- V-S5. -/
theorem test_idleHold :
    registersOf (step (stateOf 4 1 .idle [] 0 0 0 false [stimStep 0x123456 0xFF])) =
      some (.idle, 0, 0x00, 0x000000, 0) := by decide
/-- V-S21. -/
theorem test_termHold :
    registersOf (step (stateOf 2 1 .terminated [0x501, 0xA02] 0x03 0x0000F1 (-15) false [stimStep 0x000777 0xEE])) =
      some (.terminated, 2, 0x03, 0x0000F1, -15) := by decide
/-- V-S20: forced. -/
theorem test_runFull :
    registersOf (step (stateOf 2 1 .running [0x501, 0xA02] 0x02 0x000100 4 true [stimStep 0x000080 0x05])) =
      some (.terminated, 2, 0x02, 0x000100, 4) := by decide
/-- V-S20. -/
theorem test_runFull_flags :
    flagsOf (step (stateOf 2 1 .running [0x501, 0xA02] 0x02 0x000100 4 true [stimStep 0x000080 0x05])) =
      some (true, false, false, false) := by decide
/-- V-S14: the last merge before saturation. -/
theorem test_runTmoMerge :
    recordsOf (step (stateOf 4 1 .running [0xFFFFFE00] 0x00 0x800000 0 false [stimStep 0x000000 0x00])) =
      some [some 0xFFFFFF00] := by decide
/-- V-S17: a budget of 0 does not stop. -/
theorem test_runTmoMerge_budget :
    registersOf (step (stateOf 4 1 .running [0x80000100] 0x00 0x000000 8388608 true [stimStep 0x800000 0x00])) =
      some (.running, 1, 0x00, 0x800000, 0) := by decide
/-- V-S12: the edge is ignored. -/
theorem test_runTmoAppend :
    registersOf (step (stateOf 4 1 .running [] 0x00 0x000000 0 false [stimStep 0x800000 0x01])) =
      some (.running, 1, 0x00, 0x800000, -8388608) := by decide
/-- V-S15: a saturated record is not merged into. -/
theorem test_runTmoAppend_saturated :
    recordsOf (step (stateOf 4 1 .running [0xFFFFFF00] 0x00 0x000000 0 false [stimStep 0x800000 0x00])) =
      some [some 0xFFFFFF00, some 0x80000100] := by decide
/-- V-S11: the last slot. -/
theorem test_runChange :
    registersOf (step (stateOf 2 1 .running [0x00000501] 0x02 0x000100 0 false [stimStep 0x0000F6 0x03])) =
      some (.terminated, 2, 0x03, 0x0000F6, -10) := by decide
/-- V-S11. -/
theorem test_runChange_records :
    recordsOf (step (stateOf 2 1 .running [0x00000501] 0x02 0x000100 0 false [stimStep 0x0000F6 0x03])) =
      some [some 0x00000501, some 0x00000A02] := by decide
/-- V-S6: `start` is ignored. -/
theorem test_runWait :
    registersOf (step (stateOf 4 1 .running [0x80000101] 0x01 0x000100 7 true [stimGo 99 0x0000F0 0x01])) =
      some (.running, 1, 0x01, 0x000100, 7) := by decide
/-- V-S6. -/
theorem test_runWait_flags :
    flagsOf (step (stateOf 4 1 .running [0x80000101] 0x01 0x000100 7 true [stimGo 99 0x0000F0 0x01])) =
      some (false, false, true, false) := by decide
/-- I-ST11: a forced edge. -/
theorem test_reservedSt11 :
    refusalOf (step (stateOf 4 1 .running [] 0 0 0 false [.clockForced ⟨false, true, 0, 0, 0⟩])) = some .reservedSessionState := by
  decide
/-- Section 2.7: a record of a finished session, read through the port. -/
theorem test_read :
    readerOf (step (stateOf 2 1000 .terminated [0x80000300, 0x00006400] 0x01 0x7FFF9C 0 false [stimRead 1])) =
      some (0x00006400, 0, []) := by decide
/-- Section 2.7: beyond the buffer, with `NMAX = 3`. -/
theorem test_read_beyond : readerOf (step (stateOf 3 1 .idle [] 0 0 0 false [stimRead 3])) = some (0x00000000, 0, []) := by
  decide
/-- Section 2.4: `[0x80000300, ...]` begins with `[0, 25165824)` at `0x00`, and no change at its end. -/
theorem test_recLong :
    readerOf (step (placeRecord (stateOf 4 1 .idle [] 0 0 0 false []) 0x80000300)) =
      some (0x80000300, 25165824, [⟨0, 25165824, 0x00, false⟩]) := by decide
/-- Section 2.4: `0x80000000` is refused. -/
theorem test_recLong_invalid :
    refusalOf (step (placeRecord (stateOf 4 1 .idle [] 0 0 0 false []) 0x80000000)) = some .invalidRecord := by decide
/-- Section 2.4: a change ends every short record. -/
theorem test_recShort :
    readerOf (step (placeRecord (stateOf 4 1 .idle [] 0 0 0 false []) 0x00006400)) =
      some (0x00006400, 100, [⟨0, 100, 0x00, true⟩]) := by decide
/-- Section 2.4: `0x000000AB` is refused. -/
theorem test_recShort_invalid :
    refusalOf (step (placeRecord (stateOf 4 1 .idle [] 0 0 0 false []) 0x000000AB)) = some .invalidRecord := by decide
/-- An append at an index that does not exist stops (R68). -/
theorem test_bufferIndex_fault :
    faultOf (execRunTmoAppend (stateOf 1 1 .running [0x501, 0xA02] 0 0 0 false [])) = some .bufferIndex := by decide

/-- The instruction that the next event selects. -/
def nextInstr (s : State) : Option Instr :=
  match fetch s with
  | .run i _ => some i
  | .quiet _ => none

/-- Where the host places a word, the next step runs what the decoder reads from it: a selector with every condition up, a record,
and READ. -/
theorem test_withFetchWord_selector : nextInstr (State.reset.withFetchWord 8 0x2E) = decodeTableWord 8 0x2E := by decide
theorem test_withFetchWord_reserved : nextInstr (State.reset.withFetchWord 8 0x7F) = decodeTableWord 8 0x7F := by decide
theorem test_withFetchWord_record :
    nextInstr (State.reset.withFetchWord 32 0x800001AA) = decodeTableWord 32 0x800001AA := by decide
theorem test_withFetchWord_read : nextInstr (State.reset.withFetchWord 0 0) = decodeTableWord 0 0 := by decide

/-! ### Operations: the tables of 95_test_vectors.md sections 2.1 and 2.3 -/

theorem test_elapsed_wraps : elapsedBetween 0x000000 0xFFFFFF = 0x000001 := by decide
theorem test_tmo_below : tmoOf 0x000000 0x800001 = false := by decide
theorem test_tmo_at : tmoOf 0x123456 0x923456 = true := by decide
theorem test_advanced : advanced 0x5A5A5A = 0xDA5A5A := by decide
theorem test_encShort : encShort 0x7FFFFF 0xAB = 0x7FFFFFAB := by decide
theorem test_encLong : encLong 1 0x05 = 0x80000105 := by decide
theorem test_mergeable_other_sample : mergeable 0x80000104 0x05 = false := by decide
theorem test_bumpCount : bumpCount 0x80000AFF = 0x80000BFF := by decide
theorem test_recordDuration : recordDuration 0xFFFFFFFF = 70368735789056 := by decide
theorem test_addrWidth : addrWidth ⟨3, 1, 0⟩ = 2 ∧ addrWidth ⟨1, 1, 0⟩ = 1 ∧ countWidth ⟨4, 1, 0⟩ = 3 := by decide

/-! ### States that meet the statements' hypotheses, one theorem for each statement that has any -/

/-- The invariants of `TraceInv` as a check that evaluates. -/
def traceCheck (s : State) : Bool :=
  decide s.par.Valid && Memory.wf s.buf && s.buf.all (fun c => decide (c.1 < 4 * s.par.nmax)) && decide (s.n ≤ s.par.nmax) &&
  (decide (s.st ≠ .running) || decide (s.n < s.par.nmax)) && (decide (s.st ≠ .idle) || s.n == 0) &&
  (List.range s.n).all (fun i => (Memory.readWord s.buf i).any (fun w => !recFmt w || recCnt w != 0)) &&
  (s.n == 0 || (Memory.readWord s.buf (s.n - 1)).all (fun w => (recSmp w == s.lvl) == recFmt w)) &&
  (List.range (s.n - 1)).all (fun i => (Memory.readWord s.buf i).all (fun w => (Memory.readWord s.buf (i + 1)).all (fun w' =>
    ((recSmp w == recSmp w') == recFmt w) && (!recFmt w || !recFmt w' || (recCnt w).toNat == CMAX))))

theorem traceInv_of_check {s : State} (h : traceCheck s = true) : TraceInv s := by
  simp only [traceCheck, Bool.and_eq_true, decide_eq_true_eq, List.all_eq_true, Bool.or_eq_true, List.mem_range, beq_iff_eq,
    Option.any_eq_true_iff_get, Option.all_eq_true_iff_get, Bool.not_eq_true', bne_iff_ne] at h
  obtain ⟨⟨⟨⟨⟨⟨⟨⟨h1, h2⟩, h3⟩, h4⟩, h5⟩, h6⟩, h7⟩, h8⟩, h9⟩ := h
  have hs : ∀ i w, Memory.readWord s.buf i = some w → (Memory.readWord s.buf i).isSome = true := fun i w hw => by rw [hw]; rfl
  refine ⟨h1, h2, fun c hc => h3 c hc, h4, fun h => ?_, fun h => ?_, fun i hi => ?_, fun w h0 hw => ?_,
    fun i w w' hi hw hw' => ?_, fun i w w' hi hw hw' hf hf' => ?_⟩
  · rcases h5 with h5 | h5
    · exact absurd h h5
    · exact h5
  · rcases h6 with h6 | h6
    · exact absurd h h6
    · exact h6
  · obtain ⟨hsome, hw⟩ := h7 i hi
    refine ⟨_, (Option.some_get hsome).symm, fun hf => ?_⟩
    rcases hw with hw | hw
    · rw [hf] at hw
      cases hw
    · exact hw
  · rcases h8 with h8 | h8
    · omega
    · have := h8 (hs _ _ hw)
      simp only [hw, Option.get_some] at this
      rw [← this]
      simp
  · have := (h9 i (by omega) (hs _ _ hw) (hs _ _ hw')).1
    simp only [hw, hw', Option.get_some] at this
    rw [← this]
    simp
  · have := (h9 i (by omega) (hs _ _ hw) (hs _ _ hw')).2
    simp only [hw, hw', Option.get_some, hf, hf', Bool.true_eq_false, false_or] at this
    exact this

theorem witness_EncodeOfDecodeIsIdentity : decode [0x24] = .ok (.runChange false false) := by decide
theorem witness_RecordDecodesByFormatBit :
    (0x7FFFFF00 : Word).getLsbD 31 = false ∧ (0x80000300 : Word).getLsbD 31 = true := by decide
theorem witness_EncoderWordForms : (0x7FFFFF : Tick).toNat < UNIT := by decide
theorem witness_MergeRaisesOnlyTheCount : mergeable 0xFFFFFE55 0x55 = true := by decide
theorem witness_AdvanceConsumesOneUnit : tmoOf 0x000000 0x800000 = true ∧ tmoOf 0x000000 0x000001 = true := by decide

/-- V-S9's edge, at the largest interval of a short record. -/
def largestChange : State :=
  driveEdge (stateOf 4 1 .running [] 0x01 0x000000 0 false []) ⟨false, false, 0, 0x800001, 0x02⟩ []

theorem witness_ChangeCountIsNeverTruncated : selects largestChange .runChange := rfl

theorem witness_ElapsedBelowUnitAfterEdge :
    ∃ s t p rest, s.env.pending = .clock p :: rest ∧ s.n ≤ s.par.nmax ∧ step s = .next t ∧ t.st = .running :=
  ⟨stateOf 4 1 .running [] 0x00 0x000000 0 false [stimStep 0x000001 0x00], _, _, _, rfl, by decide, rfl, rfl⟩

theorem witness_StepRunsDecodedOperation_clock :
    (stateOf 4 1 .idle [] 0 0 0 false [stimStep 0 0]).env.pending = .clock ⟨false, false, 0, 0, 0⟩ :: [] ∧
    decode [selector (driveEdge (stateOf 4 1 .idle [] 0 0 0 false [stimStep 0 0]) ⟨false, false, 0, 0, 0⟩ [])] =
      .ok (.idleHold false false false false) := by decide
theorem witness_StepRunsDecodedOperation_forced :
    (stateOf 4 1 .idle [] 0 0 0 false [.clockForced ⟨true, false, 0, 0, 0⟩]).env.pending =
      .clockForced ⟨true, false, 0, 0, 0⟩ :: [] ∧
    decode [forcedSelector (driveEdge (stateOf 4 1 .idle [] 0 0 0 false []) ⟨true, false, 0, 0, 0⟩ [])] =
      .ok (.reset 0b11 false false false false false) := by decide
theorem witness_StepRunsDecodedOperation_free :
    State.reset.env.pending = [] ∧ ∃ i, decode [selector (driveEdge State.reset (freePorts State.reset.env.edges) [])] = .ok i :=
  ⟨rfl, _, rfl⟩
theorem witness_StepRunsDecodedOperation_read :
    (stateOf 4 1 .idle [] 0 0 0 false [stimRead 0]).env.pending = .read 0 :: [] ∧ decode [] = .ok .read := by decide
theorem witness_StepRunsDecodedOperation_record :
    (placeRecord (stateOf 4 1 .idle [] 0 0 0 false []) 0x501).env.pending = .decodeRecord :: [] ∧
    decode [0x01, 0x05, 0x00, 0x00] = .ok (.recShort 5 0x01) := by decide
theorem witness_StepRunsDecodedOperation_rewind :
    (stateOf 4 1 .idle [] 0 0 0 false [.rewind]).env.pending = .rewind :: [] := by decide

/-- A full buffer is within the hypothesis, and so is an edge that the host has not scripted. -/
theorem witness_EveryEdgeCompletes :
    (∃ s : State, s.n = s.par.nmax ∧ ∃ p rest, s.env.pending = .clock p :: rest) ∧
    (∃ s : State, s.n ≤ s.par.nmax ∧ s.env.pending = []) :=
  ⟨⟨stateOf 1 1 .running [0x501] 0 0 0 false [stimStep 0 0], rfl, _, _, rfl⟩, stateOf 1 1 .idle [] 0 0 0 false [], by decide, rfl⟩

theorem witness_ReservedSelectorIsRefused :
    (∃ (s : State) (p : Ports) (rest : List HostEvent), s.env.pending = .clockForced p :: rest ∧ p.rst = false) ∧
    (∃ (s : State) (p : Ports) (rest : List HostEvent), s.env.pending = .clockForced p :: rest ∧ p.rst = true) :=
  ⟨⟨stateOf 1 1 .idle [] 0 0 0 false [.clockForced ⟨false, false, 0, 0, 0⟩], _, _, rfl, rfl⟩,
    ⟨stateOf 1 1 .idle [] 0 0 0 false [.clockForced ⟨true, false, 0, 0, 0⟩], _, _, rfl, rfl⟩⟩

/-- A state whose wires carry the inputs `p`. -/
def wiredOf (nmax tpm : Nat) (st : SessionState) (ws : List Word) (lvl : Byte) (bnd : Tick) (p : Ports) : State :=
  driveEdge (stateOf nmax tpm st ws lvl bnd 0 false []) p []

theorem witness_ResetWritesEveryRegister :
    (wiredOf 4 1 .running [0x501] 0 0 ⟨true, true, 0, 0, 0⟩).env.ports.rst = true := by decide

theorem witness_StartBeginsSession_budget :
    (wiredOf 4 (2 ^ 30) .idle [] 0 0 ⟨false, true, 0xFFFFFFFF, 0, 0⟩).par.ticksPerMs ≤ 2 ^ 30 := by decide
theorem witness_StartBeginsSession_selected :
    ∀ st ∈ [SessionState.idle, .terminated], let s := wiredOf 4 1 st [] 0 0 ⟨false, true, 0, 0, 0⟩
      s.env.ports.rst = false ∧ s.env.ports.start = true ∧ s.st ≠ .running := by decide

theorem witness_HoldsLowerOnlyTheIndicators :
    ∀ st ∈ [SessionState.idle, .terminated], let s := wiredOf 4 1 st [] 0 0 ⟨false, false, 0, 0, 0⟩
      s.env.ports.rst = false ∧ s.env.ports.start = false ∧ s.st = st := by decide

/-- A finished session with program P2's records. -/
def finishedSession (events : List HostEvent) : State :=
  { stateOf 2 1000 .terminated [0x80000300, 0x00006400] 0x01 0x7FFF9C (-25165924) false events with termFull := true }

theorem witness_FinishedSessionIsStable :
    TraceInv (finishedSession ([⟨false, false, 0, 5, 9⟩, ⟨false, false, 0, 4, 0⟩].map .clock)) ∧
    (finishedSession []).st = .terminated ∧
    ∀ p ∈ ([⟨false, false, 0, 5, 9⟩, ⟨false, false, 0, 4, 0⟩] : List Ports), p.rst = false ∧ p.start = false :=
  ⟨traceInv_of_check (by decide), rfl, by decide⟩

theorem witness_WaitChangesOnlyTheIndicators :
    let s := wiredOf 4 1 .running [] 0x01 0x000000 ⟨false, true, 0, 0x800001, 0x01⟩
    s.env.ports.rst = false ∧ s.st = .running ∧ full s = false ∧ tmo s = false ∧ chg s = false := by decide

theorem witness_ChangeCommitsShortRecord_selected :
    largestChange.env.ports.rst = false ∧ largestChange.st = .running ∧ full largestChange = false ∧ tmo largestChange = false ∧
    chg largestChange = true := by decide
/-- The last slot of the buffer and the largest interval. -/
theorem witness_ChangeCommitsShortRecord :
    let s := wiredOf 1 1 .running [] 0x01 0x000000 ⟨false, false, 0, 0x800001, 0x02⟩
    s.n + 1 = s.par.nmax ∧ (elapsed s).toNat + 1 = UNIT := by decide

theorem witness_TimeoutAppendsLongRecord :
    let s := wiredOf 1 1 .running [] 0x01 0x000000 ⟨false, false, 0, 0x800000, 0x02⟩
    s.env.ports.rst = false ∧ s.st = .running ∧ full s = false ∧ tmo s = true ∧ mrg s = false ∧ s.n < s.par.nmax := by decide

theorem witness_TimeoutMergesIntoLastRecord :
    let s := wiredOf 2 1 .running [0xFFFFFE00] 0x00 0x000000 ⟨false, false, 0, 0x800000, 0x02⟩
    s.env.ports.rst = false ∧ s.st = .running ∧ full s = false ∧ tmo s = true ∧ mrg s = true ∧ 0 < s.n ∧ s.n < s.par.nmax ∧
    Memory.readWord s.buf (s.n - 1) = some 0xFFFFFE00 ∧ mergeable 0xFFFFFE00 s.lvl = true := by decide

/-- V-S20's state: a full buffer in RUNNING. -/
theorem witness_FullBufferEndsSession :
    let s := wiredOf 2 1 .running [0x501, 0xA02] 0x02 0x000100 ⟨false, false, 0, 0x000080, 0x05⟩
    s.env.ports.rst = false ∧ s.st = .running ∧ s.n = s.par.nmax := by decide
theorem witness_EncoderRefusesWhenFull :
    let s := wiredOf 1 1 .running [0x80000100] 0x00 0x000000 ⟨false, false, 0, 0x800000, 0x00⟩
    s.n = s.par.nmax ∧ s.env.ports.rst = false ∧ s.st = .running ∧
    (Instr.runTmoMerge false false).operation = some .runTmoMerge := by decide

theorem witness_SessionEndsOnStopCondition_change :
    let s := wiredOf 1 1 .running [] 0x01 0x000000 ⟨false, false, 0, 0x800001, 0x02⟩
    s.st = .running ∧ s.n ≤ s.par.nmax ∧ ∃ t, exec (.runChange false false) s = .next t :=
  ⟨by decide, by decide, _, rfl⟩
theorem witness_SessionEndsOnStopCondition_append :
    let s := wiredOf 2 1 .running [] 0x01 0x000000 ⟨false, false, 0, 0x800000, 0x01⟩
    s.st = .running ∧ s.n ≤ s.par.nmax ∧ ∃ t, exec (.runTmoAppend false false) s = .next t :=
  ⟨by decide, by decide, _, rfl⟩
theorem witness_SessionEndsOnStopCondition_merge :
    let s := wiredOf 2 1 .running [0x80000100] 0x00 0x000000 ⟨false, false, 0, 0x800000, 0x00⟩
    s.st = .running ∧ s.n ≤ s.par.nmax ∧ ∃ t, exec (.runTmoMerge false false) s = .next t :=
  ⟨by decide, by decide, _, rfl⟩
theorem witness_SessionEndsOnStopCondition_full :
    let s := wiredOf 1 1 .running [0x80000100] 0x00 0x000000 ⟨false, false, 0, 0x800000, 0x00⟩
    s.st = .running ∧ s.n ≤ s.par.nmax ∧ ∃ t, exec (.runFull false true false true) s = .next t :=
  ⟨by decide, by decide, _, rfl⟩

theorem witness_UnitBoundaryRoutesToTimeout :
    (let s := wiredOf 1 1 .running [] 0x01 0x000000 ⟨false, false, 0, 0x800001, 0x02⟩
     s.env.ports.rst = false ∧ s.st = .running ∧ s.n < s.par.nmax ∧ (elapsed s).toNat = 2 ^ 23 - 1 ∧ s.env.ports.levelIn ≠ s.lvl) ∧
    (let s := wiredOf 1 1 .running [] 0x01 0x000000 ⟨false, false, 0, 0x800000, 0x02⟩
     s.env.ports.rst = false ∧ s.st = .running ∧ s.n < s.par.nmax ∧ (elapsed s).toNat = 2 ^ 23) := by decide

theorem witness_StartIgnoredWhileRunning :
    (∃ s t : State, s.st = .running ∧ step { s with env := { s.env with pending := [stimStep 5 1] } } = .next t) ∧
    (∃ s t : State, step { s with env := { s.env with pending := [stimRst] } } = .next t) ∧
    (∃ s t : State, s.st = .idle ∧ step { s with env := { s.env with pending := [stimStep 5 1] } } = .next t) :=
  ⟨⟨stateOf 4 1 .running [] 0 0x10 0 false [], _, rfl, rfl⟩, ⟨stateOf 4 1 .running [] 0 0x10 0 false [], _, rfl⟩,
    stateOf 4 1 .idle [] 0 0 0 false [], _, rfl, rfl⟩

theorem witness_IndicatorsMarkThePhases :
    ∃ t, selects (driveEdge (stateOf 1 1 .running [] 0x01 0x10 0 false [stimStep 5 2]) ⟨false, false, 0, 5, 2⟩ []) .runChange ∧
      (stateOf 1 1 .running [] 0x01 0x10 0 false [stimStep 5 2]).n ≤ 1 ∧
      step (stateOf 1 1 .running [] 0x01 0x10 0 false [stimStep 5 2]) = .next t :=
  ⟨_, rfl, by decide, rfl⟩

theorem witness_EdgeWritesAtMostOneWord_append :
    ∃ t, selects (driveEdge (stateOf 1 1 .running [] 0x01 0x10 0 false [stimStep 5 2]) ⟨false, false, 0, 5, 2⟩ []) .runChange ∧
      (stateOf 1 1 .running [] 0x01 0x10 0 false [stimStep 5 2]).n < 1 ∧
      step (stateOf 1 1 .running [] 0x01 0x10 0 false [stimStep 5 2]) = .next t :=
  ⟨_, rfl, by decide, rfl⟩
theorem witness_EdgeWritesAtMostOneWord_merge :
    ∃ t, selects (driveEdge (stateOf 2 1 .running [0x80000100] 0 0 0 false [stimStep 0x800000 2])
        ⟨false, false, 0, 0x800000, 2⟩ []) .runTmoMerge ∧
      step (stateOf 2 1 .running [0x80000100] 0 0 0 false [stimStep 0x800000 2]) = .next t :=
  ⟨_, rfl, rfl⟩

theorem witness_ReadAnswersByAddress_beyond :
    let s := { stateOf 3 1 .idle [] 0 0 0 false [] with env := { Environment.initial with rdAddr := 3 } }
    s.st ≠ .running ∧ s.par.nmax ≤ s.env.rdAddr := by decide
theorem witness_ReadAnswersByAddress_record :
    let s := { finishedSession [] with env := { Environment.initial with rdAddr := 1 } }
    s.st ≠ .running ∧ s.env.rdAddr < s.par.nmax ∧ s.env.rdAddr + 1 = s.n ∧
    Memory.readWord s.buf s.env.rdAddr = some 0x00006400 := by decide
theorem witness_RepeatedReadsAgree :
    (stateOf 3 1 .running [] 0 0 0 false [stimRead 2, stimRead 2]).env.pending = .read 2 :: .read 2 :: [] := by decide
theorem witness_RecordWordEntersItsInterval : (1 : Count) ≠ 0 ∧ (0x7FFFFF : Count) ≠ 0 ∧ (0 : Count) = 0 := by decide

theorem witness_ReaderRebuildsTheIntervals :
    TraceInv (finishedSession (stimDecodeBuffer 2)) ∧ (finishedSession (stimDecodeBuffer 2)).st = .terminated ∧
    (∀ w ∈ records (finishedSession (stimDecodeBuffer 2)), recCnt w ≠ 0) ∧ (finishedSession []).n = 2 :=
  ⟨traceInv_of_check (by decide), rfl, by
    have h : records (finishedSession (stimDecodeBuffer 2)) = [0x80000300, 0x00006400] := rfl
    intro w hw
    rw [h] at hw
    simp only [List.mem_cons, List.not_mem_nil, or_false] at hw
    rcases hw with rfl | rfl <;> decide, rfl⟩
theorem witness_BusViewIsLittleEndian :
    TraceInv (finishedSession []) ∧ (finishedSession []).st = .terminated ∧ 1 < (finishedSession []).n ∧
    Memory.readWord (finishedSession []).buf 1 = some 0x00006400 :=
  ⟨traceInv_of_check (by decide), rfl, by decide, by decide⟩

/-- The largest capacity, and a count that fills it. -/
theorem witness_OutputsFollowTheState :
    let s := { State.resetWith ⟨2 ^ 16, 1, 0⟩ with n := 2 ^ 16 }
    s.par.Valid ∧ s.n ≤ s.par.nmax := by decide
theorem witness_ResetMeetsTheInvariants : Params.Valid ⟨1, 1, 0⟩ ∧ Params.Valid ⟨2 ^ 16, 2 ^ 30, 0⟩ := by decide

/-- A bounded session of budget 8388607 ticks with one unit recorded less its last tick: V-S16's timeout ends it. -/
def lastUnit : State := stateOf 4 1 .running [0x80000100] 0x00 0x800000 0 true [stimStep 0x000000 0x00]

theorem traceInv_lastUnit : TraceInv lastUnit := traceInv_of_check (by decide)
theorem statusInv_lastUnit : StatusInv lastUnit := by constructor <;> decide
theorem ledger_lastUnit : Ledger 8388608 0x000000 lastUnit := by constructor <;> decide

theorem witness_StepKeepsTraceInvariant : TraceInv lastUnit ∧ ∃ t, step lastUnit = .next t := ⟨traceInv_lastUnit, _, rfl⟩
theorem witness_StepKeepsStatusInvariant : TraceInv lastUnit ∧ StatusInv lastUnit ∧ ∃ t, step lastUnit = .next t :=
  ⟨traceInv_lastUnit, statusInv_lastUnit, _, rfl⟩

theorem witness_StartOpensTheLedger :
    ∃ t, (stateOf 1 (2 ^ 30) .idle [] 0 0 0 false [stimGo 0xFFFFFFFF 0 0]).par.Valid ∧
      (stateOf 1 (2 ^ 30) .idle [] 0 0 0 false [stimGo 0xFFFFFFFF 0 0]).st ≠ .running ∧
      step (stateOf 1 (2 ^ 30) .idle [] 0 0 0 false [stimGo 0xFFFFFFFF 0 0]) = .next t :=
  ⟨_, by decide, by decide, rfl⟩
theorem witness_EdgeKeepsTheLedger :
    ∃ t, TraceInv lastUnit ∧ StatusInv lastUnit ∧ lastUnit.st ≠ .idle ∧ Ledger 8388608 0x000000 lastUnit ∧
      lastUnit.env.pending = [.clock ⟨false, false, 0, 0, 0⟩] ∧ lastUnit.st = .running ∧ step lastUnit = .next t :=
  ⟨_, traceInv_lastUnit, statusInv_lastUnit, by decide, ledger_lastUnit, rfl, rfl, rfl⟩
theorem witness_BudgetStopMeetsTheContract :
    ∃ t, TraceInv lastUnit ∧ StatusInv lastUnit ∧ lastUnit.st = .running ∧ Ledger 8388608 0x000000 lastUnit ∧
      lastUnit.env.pending = [.clock ⟨false, false, 0, 0, 0⟩] ∧ step lastUnit = .next t ∧ t.st = .terminated ∧
      t.termBudget = true :=
  ⟨_, traceInv_lastUnit, statusInv_lastUnit, rfl, ledger_lastUnit, rfl, rfl, rfl, rfl⟩
/-- V-S11's step, which fills the buffer. -/
def lastSlot : State := stateOf 2 1 .running [0x00000501] 0x02 0x000100 0 false [stimStep 0x0000F6 0x03]

theorem witness_UnboundedSessionEndsWhenFull :
    lastSlot.st = .running ∧ lastSlot.bounded = false ∧ lastSlot.n ≤ lastSlot.par.nmax ∧
      lastSlot.env.pending = [.clock ⟨false, false, 0, 0x0000F6, 0x03⟩] ∧ ∃ t, step lastSlot = .next t ∧ t.st = .terminated :=
  ⟨rfl, rfl, by decide, rfl, _, rfl, rfl⟩

/-- Program P7b from step 5 on: the reading before the timeout was `0x800001`. -/
def beforeTimeout : State :=
  { stateOf 4 1 .running [] 0x00 0x000000 0 false [] with
    env := { Environment.initial with
      ports := ⟨false, false, 0, 0x800001, 0x00⟩
      pending := [stimStep 0x400001 0x01, stimStep 0x000001 0x01] } }

theorem witness_TimeoutIsFollowedByCommit :
    ∃ t, beforeTimeout.st = .running ∧ beforeTimeout.n < beforeTimeout.par.nmax ∧ (elapsed beforeTimeout).toNat < UNIT ∧
      spacedBy beforeTimeout.env.ports.tickIn 0x400001 ∧ spacedBy 0x400001 0x000001 ∧
      tmo (driveEdge beforeTimeout ⟨false, false, 0, 0x400001, 0x01⟩ [stimStep 0x000001 0x01]) = true ∧
      step beforeTimeout = .next t ∧ t.st = .running ∧ (0x01 : Byte) ≠ beforeTimeout.lvl :=
  ⟨_, rfl, by decide, by decide, by unfold spacedBy; decide, by unfold spacedBy; decide, by decide, rfl, rfl, by decide⟩

/-- The premises of TimeoutsFillLongRecords. -/
def timeoutsFit (k : Nat) (ps : List Ports) (s : State) : Prop :=
  s.st = .running ∧ timeoutCount s.bnd ps = k ∧ 1 ≤ k ∧
  (s.bounded = true → ((k - 1 : Nat) : Int) * UNIT ≤ s.bud.toInt) ∧
  s.n + (k - 1) / CMAX + 1 ≤ s.par.nmax ∧
  (s.n + (k - 1) / CMAX + 1 = s.par.nmax → (k - 1) % CMAX = 0) ∧
  (s.n = 0 ∨ ∃ w, Memory.readWord s.buf (s.n - 1) = some w ∧ recFmt w = false) ∧
  s.env.pending = ps.map .clock ∧ timeoutsAndWaits s.lvl s.bnd ps

/-- V-S12's step twice, from an empty buffer. -/
theorem witness_TimeoutsFillLongRecords_empty :
    timeoutsFit 2 [⟨false, false, 0, 0x800000, 0x01⟩, ⟨false, false, 0, 0x000000, 0x00⟩]
      (stateOf 2 1 .running [] 0x00 0x000000 0 false [stimStep 0x800000 0x01, stimStep 0x000000 0x00]) :=
  ⟨rfl, by decide, by decide, by decide, by decide, by decide, .inl rfl, rfl, rfl, rfl, trivial⟩
/-- A short record before, and one timeout that both fills the buffer and spends a budget of one tick less than it takes. -/
theorem witness_TimeoutsFillLongRecords_short :
    timeoutsFit 1 [⟨false, false, 0, 0x800000, 0x01⟩]
      (stateOf 2 1 .running [0x00000506] 0x00 0x000000 8388607 true [stimStep 0x800000 0x01]) ∧
    (1 + (1 - 1) / CMAX + 1 = 2 ∧ (8388607 : Int) < ((1 : Nat) : Int) * UNIT) :=
  ⟨⟨rfl, by decide, by decide, by decide, by decide, by decide, .inr ⟨0x00000506, by decide, by decide⟩, rfl, rfl, trivial⟩,
    by decide⟩

/-- `k` times two polls half a unit apart, the first half a unit after the boundary `bnd`: a wait and a timeout each. -/
def halfUnits : Nat → Tick → List Ports
  | 0, _ => []
  | k + 1, bnd => ⟨false, false, 0, bnd - 0x400000, 0⟩ :: ⟨false, false, 0, advanced bnd, 0⟩ :: halfUnits k (advanced bnd)

theorem tmoOf_half (bnd : Tick) : tmoOf bnd (bnd - 0x400000) = false := by
  have h : elapsedBetween bnd (bnd - 0x400000) = 0x400000 := sub_sub_cancel bnd _
  unfold tmoOf; rw [h]; decide

theorem tmoOf_unit (bnd : Tick) : tmoOf bnd (advanced bnd) = true := by
  have h : elapsedBetween bnd (advanced bnd) = BitVec.ofNat 24 UNIT := sub_sub_cancel bnd _
  unfold tmoOf; rw [h]; decide

theorem halfUnits_count (k : Nat) : ∀ bnd, timeoutCount bnd (halfUnits k bnd) = k := by
  induction k with
  | zero => exact fun _ => rfl
  | succ k ih => intro bnd; simp only [halfUnits, timeoutCount, tmoOf_half, tmoOf_unit, ih, if_true, Bool.false_eq_true, if_false]

theorem halfUnits_timeoutsAndWaits (k : Nat) : ∀ bnd, timeoutsAndWaits 0 bnd (halfUnits k bnd) := by
  induction k with
  | zero => exact fun _ => trivial
  | succ k ih =>
    intro bnd
    simp only [halfUnits, timeoutsAndWaits, tmoOf_half, tmoOf_unit, ih, if_true, Bool.false_eq_true, if_false]
    exact ⟨trivial, trivial, List.cons_ne_nil _ _, trivial, trivial⟩

theorem saturation_exists : ∃ k, k = CMAX + 1 := ⟨_, rfl⟩

/-- The saturation program of 95_test_vectors.md section 3.8 after its START: its `CMAX + 1` timeouts, a wait before each, meet
the hypotheses, and the last fills the buffer. -/
theorem saturation_suffices (k : Nat) (hk : k = CMAX + 1) :
    ∃ (k : Nat) (ps : List Ports) (s : State), k = CMAX + 1 ∧ timeoutsFit k ps s ∧ s.n + (k - 1) / CMAX + 1 = s.par.nmax := by
  have hq : (k - 1) / CMAX = 1 := by rw [hk]; decide
  have hm : (k - 1) % CMAX = 0 := by rw [hk]; decide
  have h1 : 1 ≤ k := by rw [hk]; exact Nat.le_add_left 1 CMAX
  refine ⟨k, halfUnits k 0,
    { stateOf 2 1000 .running [] 0 0 0 false [] with
      env := { Environment.initial with pending := (halfUnits k 0).map .clock } },
    hk, ⟨rfl, halfUnits_count k 0, h1, by simp [stateOf], ?_, fun _ => hm, .inl rfl, rfl, halfUnits_timeoutsAndWaits k 0⟩, ?_⟩ <;>
    rw [hq]
  · exact Nat.le_refl 2
  · rfl
theorem witness_TimeoutsFillLongRecords_saturation :
    ∃ (k : Nat) (ps : List Ports) (s : State), k = CMAX + 1 ∧ timeoutsFit k ps s ∧ s.n + (k - 1) / CMAX + 1 = s.par.nmax :=
  saturation_exists.elim saturation_suffices

theorem witness_RunsAreOffsetInvariant :
    lastSlot.env.pending = ([⟨false, false, 0, 0x0000F6, 0x03⟩] : List Ports).map .clock ∧
      (∀ p ∈ ([⟨false, false, 0, 0x0000F6, 0x03⟩] : List Ports), p.rst = false) ∧ ∃ t, runSteps 1 lastSlot = .next t :=
  ⟨rfl, by decide, _, rfl⟩

/-- The same START after a reset and after a finished session. -/
theorem witness_SessionsAreIndependent :
    ∃ t, let s := stateOf 2 1000 .idle [] 0 0 0 false [stimGo 0 0x100 0x01, stimStep 0xFB 0x02]
      let s' := finishedSession [stimGo 0 0x100 0x01, stimStep 0xFB 0x02]
      s.st ≠ .running ∧ s'.st ≠ .running ∧ s'.par = s.par ∧ s'.env = s.env ∧ runSteps 2 s = .next t :=
  ⟨_, by decide, by decide, rfl, rfl, rfl⟩

/-- `k` polls one tick apart, from the reading after `tick` on. -/
def slowPolls : Nat → Tick → List Ports
  | 0, _ => []
  | k + 1, tick => ⟨false, false, 0, tick - 1, 0⟩ :: slowPolls k (tick - 1)

theorem slowPolls_keepsDuties (k : Nat) : ∀ tick, keepsDuties tick (slowPolls k tick) := by
  induction k with
  | zero => exact fun _ => trivial
  | succ k ih =>
    intro tick
    have h : elapsedBetween tick (tick - 1) = 1 := sub_sub_cancel tick 1
    exact ⟨rfl, by unfold spacedBy; rw [h]; decide, ih _⟩

theorem slowPolls_length (k : Nat) : ∀ tick, (slowPolls k tick).length = k := by
  induction k with
  | zero => exact fun _ => rfl
  | succ k ih => exact fun tick => congrArg (· + 1) (ih (tick - 1))

theorem enough_exist : ∃ k, 1 * CMAX * UNIT ≤ k := ⟨1 * CMAX * UNIT, Nat.le_refl _⟩

/-- Enough of those polls after a START meet the hypotheses of SessionEndsInBoundedTime, whatever "enough" is. -/
theorem slowPolls_suffice (k : Nat) (hk : 1 * CMAX * UNIT ≤ k) :
    ∃ (p : Ports) (ps : List Ports) (s : State), TraceInv s ∧ s.st ≠ .running ∧ s.env.pending = .clock p :: ps.map .clock ∧
      p.rst = false ∧ p.start = true ∧ keepsDuties p.tickIn ps ∧ s.par.nmax * CMAX * UNIT ≤ ps.length := by
  refine ⟨⟨false, true, 0, 0, 0⟩, slowPolls k 0,
    { stateOf 1 1 .idle [] 0 0 0 false [] with
      env := { Environment.initial with pending := .clock ⟨false, true, 0, 0, 0⟩ :: (slowPolls k 0).map .clock } },
    ?_, by simp [stateOf], rfl, rfl, rfl, slowPolls_keepsDuties k 0, by rw [slowPolls_length]; exact hk⟩
  exact traceInv_of_check rfl

theorem witness_SessionEndsInBoundedTime :
    ∃ (p : Ports) (ps : List Ports) (s : State), TraceInv s ∧ s.st ≠ .running ∧ s.env.pending = .clock p :: ps.map .clock ∧
      p.rst = false ∧ p.start = true ∧ keepsDuties p.tickIn ps ∧ s.par.nmax * CMAX * UNIT ≤ ps.length :=
  Exists.elim enough_exist slowPolls_suffice

theorem records_beforeTimeout : records beforeTimeout = [] := rfl

theorem witness_SpacedEdgesRecordPositiveCounts :
    TraceInv beforeTimeout ∧ beforeTimeout.st = .running ∧ (elapsed beforeTimeout).toNat < UNIT ∧
      spacedBy beforeTimeout.env.ports.tickIn 0x400001 ∧ (∀ w ∈ records beforeTimeout, recCnt w ≠ 0) ∧
      ∃ t, step beforeTimeout = .next t :=
  ⟨traceInv_of_check (by decide), rfl, by decide, by unfold spacedBy; decide,
    fun w hw => absurd (records_beforeTimeout ▸ hw) List.not_mem_nil, _, rfl⟩

end Sys2Proof.Tests
end

/-! PROOFS. The facts about records, the elapsed ticks and the buffer that the claims about states rest on
(30_encoding.md rules R80 to R84, R132 to R134; 20_memory.md rules R60 to R66). -/

namespace Sys2Proof.Machine

/-! ### Record words -/

@[simp] theorem recFmt_encShort (t : Tick) (smp : Byte) : recFmt (encShort t smp) = false := recFmt_packRecord _ _ _
@[simp] theorem recSmp_encShort (t : Tick) (smp : Byte) : recSmp (encShort t smp) = smp := recSmp_packRecord _ _ _
@[simp] theorem recFmt_encLong (u : Count) (smp : Byte) : recFmt (encLong u smp) = true := recFmt_packRecord _ _ _
@[simp] theorem recSmp_encLong (u : Count) (smp : Byte) : recSmp (encLong u smp) = smp := recSmp_packRecord _ _ _
@[simp] theorem recCnt_encLong (u : Count) (smp : Byte) : recCnt (encLong u smp) = u := recCnt_packRecord _ _ _
@[simp] theorem recFmt_bumpCount (w : Word) : recFmt (bumpCount w) = recFmt w := recFmt_packRecord _ _ _
@[simp] theorem recSmp_bumpCount (w : Word) : recSmp (bumpCount w) = recSmp w := recSmp_packRecord _ _ _
@[simp] theorem recCnt_bumpCount (w : Word) : recCnt (bumpCount w) = recCnt w + 1 := recCnt_packRecord _ _ _

/-- A short record's count is the interval, where the interval is below one unit (R83, R106). -/
theorem recCnt_encShort_toNat {t : Tick} (smp : Byte) (h : t.toNat < UNIT) : (recCnt (encShort t smp)).toNat = t.toNat := by
  rw [encShort, recCnt_packRecord, BitVec.extractLsb'_toNat, Nat.shiftRight_zero, Nat.mod_eq_of_lt h]

/-- A count that is not saturated rises by one without wrapping (R132, R134). -/
theorem count_add_one_toNat {c : Count} (h : c.toNat ≠ CMAX) : (c + 1).toNat = c.toNat + 1 := by
  have hlt : c.toNat < CMAX + 1 := c.isLt
  exact Nat.mod_eq_of_lt (show c.toNat + 1 < CMAX + 1 by omega)

theorem count_add_one_ne_zero {c : Count} (h : c.toNat ≠ CMAX) : c + 1 ≠ 0 := by
  intro h0
  have hz : (c + 1).toNat = 0 := by rw [h0]; rfl
  rw [count_add_one_toNat h] at hz
  omega

theorem recordDuration_encShort {t : Tick} (smp : Byte) (h : t.toNat < UNIT) : recordDuration (encShort t smp) = t.toNat := by
  rw [recordDuration, recFmt_encShort, if_neg (by simp), recCnt_encShort_toNat smp h]

theorem recordDuration_encLong_one (smp : Byte) : recordDuration (encLong 1 smp) = UNIT := by
  simp [recordDuration]

/-- A merge makes the last record one unit longer (R134). -/
theorem recordDuration_bumpCount {w : Word} (hf : recFmt w = true) (hc : (recCnt w).toNat ≠ CMAX) :
    recordDuration (bumpCount w) = recordDuration w + UNIT := by
  rw [recordDuration, recordDuration, recFmt_bumpCount, if_pos hf, if_pos hf, recCnt_bumpCount, count_add_one_toNat hc,
    Nat.add_mul, Nat.one_mul]

/-- The longest record covers `CMAX` units (R84). -/
theorem recordDuration_le (w : Word) : recordDuration w ≤ CMAX * UNIT := by
  have hc : (recCnt w).toNat ≤ CMAX := Nat.le_of_lt_succ (recCnt w).isLt
  unfold recordDuration
  split
  · exact Nat.mul_le_mul_right _ hc
  · exact hc.trans (by decide)

theorem mergeable_iff (w : Word) (lvl : Byte) :
    mergeable w lvl = true ↔ recFmt w = true ∧ recSmp w = lvl ∧ (recCnt w).toNat ≠ CMAX := by
  simp [mergeable, and_assoc]

/-! ### Elapsed ticks -/

theorem tmo_eq_true_iff (s : State) : tmo s = true ↔ UNIT ≤ (elapsed s).toNat := decide_eq_true_iff

theorem tmo_eq_false_iff (s : State) : tmo s = false ↔ (elapsed s).toNat < UNIT := by
  rw [← Bool.not_eq_true, tmo_eq_true_iff, not_le]

theorem chg_eq_true_iff (s : State) : chg s = true ↔ s.env.ports.levelIn ≠ s.lvl := bne_iff_ne

@[simp] theorem elapsedBetween_self (tick : Tick) : elapsedBetween tick tick = 0 := BitVec.sub_self tick

/-- Readings compose: the ticks from a boundary to a reading are those to an earlier reading and those between the two.
-/
theorem elapsedBetween_add (bnd previous current : Tick) :
    elapsedBetween bnd previous + elapsedBetween previous current = elapsedBetween bnd current :=
  sub_add_sub_cancel bnd previous current

/-- ADVANCE takes at most the unit that has elapsed, so less than one unit is left (R102). -/
theorem elapsedBetween_advanced_lt (bnd tick : Tick) (h : UNIT ≤ (elapsedBetween bnd tick).toNat) :
    (elapsedBetween (advanced bnd) tick).toNat < UNIT := by
  simp only [elapsedBetween, advanced, UNIT] at *
  bv_omega

/-! ### Reads of the buffer after a write -/

theorem Memory.readWord_writeWord (m : Memory) (i j : Nat) (w : Word) :
    Memory.readWord (Memory.writeWord m i w) j = if j = i then some w else Memory.readWord m j := by
  split
  · next h => rw [h, Memory.readWord_writeWord_same]
  · next h => exact Memory.readWord_writeWord_other m i j w h

theorem bufRead_of_writeWord_same {s t : State} {i : Nat} {w : Word} (hbuf : t.buf = Memory.writeWord s.buf i w) :
    bufRead t i = w :=
  bufRead_of_readWord (by rw [hbuf, Memory.readWord_writeWord_same])

theorem bufRead_of_writeWord_other {s t : State} {i j : Nat} {w : Word} (henv : t.env = s.env)
    (hbuf : t.buf = Memory.writeWord s.buf i w) (h : j ≠ i) : bufRead t j = bufRead s j := by
  have h0 : 4 * j / 4 ≠ i := by omega
  have h1 : (4 * j + 1) / 4 ≠ i := by omega
  have h2 : (4 * j + 2) / 4 ≠ i := by omega
  have h3 : (4 * j + 3) / 4 ≠ i := by omega
  simp only [bufRead, bufByte, henv, hbuf, Memory.read_writeWord_other _ _ _ _ h0, Memory.read_writeWord_other _ _ _ _ h1,
    Memory.read_writeWord_other _ _ _ _ h2, Memory.read_writeWord_other _ _ _ _ h3]

/-! ### The records -/

theorem records_eq_nil {s : State} (h : s.n = 0) : records s = [] := by simp [records, h]

theorem totalDuration_eq_zero {s : State} (h : s.n = 0) : totalDuration s = 0 := by
  rw [totalDuration, records_eq_nil h, List.map_nil, List.sum_nil]

theorem length_records (s : State) : (records s).length = s.n := by simp [records]

/-- An append leaves the records there were and adds one (R131, R133). -/
theorem records_append {s t : State} {w : Word} (henv : t.env = s.env) (hbuf : t.buf = Memory.writeWord s.buf s.n w)
    (hn : t.n = s.n + 1) : records t = records s ++ [w] := by
  unfold records
  rw [hn, List.range_succ, List.map_append, List.map_singleton, bufRead_of_writeWord_same hbuf]
  congr 1
  refine List.map_congr_left fun i hi => bufRead_of_writeWord_other henv hbuf ?_
  have := List.mem_range.1 hi
  omega

/-- The records before the last one, which a merge leaves alone (R134). -/
def earlierRecords (s : State) : List Word := (List.range (s.n - 1)).map (bufRead s)

theorem records_eq_earlier (s : State) (h : 0 < s.n) : records s = earlierRecords s ++ [bufRead s (s.n - 1)] := by
  obtain ⟨k, hk⟩ : ∃ k, s.n = k + 1 := ⟨s.n - 1, by omega⟩
  simp [records, earlierRecords, hk, List.range_succ]

/-- A merge writes another last record and leaves the earlier ones (R134). -/
theorem records_merge {s t : State} {w : Word} (henv : t.env = s.env)
    (hbuf : t.buf = Memory.writeWord s.buf (s.n - 1) w) (hn : t.n = s.n) (h : 0 < s.n) :
    records t = earlierRecords s ++ [w] := by
  rw [records_eq_earlier t (by omega), earlierRecords, earlierRecords, hn, bufRead_of_writeWord_same hbuf]
  congr 1
  refine List.map_congr_left fun i hi => bufRead_of_writeWord_other henv hbuf ?_
  have := List.mem_range.1 hi
  omega

theorem totalDuration_append {s t : State} {w : Word} (h : records t = records s ++ [w]) :
    totalDuration t = totalDuration s + recordDuration w := by
  simp [totalDuration, h]

theorem totalDuration_merge {s t : State} {w : Word} (hn : 0 < s.n) (h : records t = earlierRecords s ++ [w]) :
    totalDuration t + recordDuration (bufRead s (s.n - 1)) = totalDuration s + recordDuration w := by
  simp only [totalDuration, h, records_eq_earlier s hn, List.map_append, List.map_singleton, List.sum_append,
    List.sum_singleton]
  omega

/-- A buffer within R8's bounds accounts for fewer than `2^62` ticks (R27). -/
theorem totalDuration_lt {s : State} (h : s.n ≤ 2 ^ 16) : totalDuration s < 2 ^ 62 := by
  have hsum : totalDuration s ≤ s.n * (CMAX * UNIT) := by
    have := List.sum_le_card_nsmul ((records s).map recordDuration) (CMAX * UNIT) (by
      intro d hd
      obtain ⟨w, -, rfl⟩ := List.mem_map.1 hd
      exact recordDuration_le w)
    simpa [totalDuration, length_records] using this
  calc totalDuration s ≤ s.n * (CMAX * UNIT) := hsum
    _ ≤ 2 ^ 16 * (CMAX * UNIT) := Nat.mul_le_mul_right _ h
    _ < 2 ^ 62 := by decide

end Sys2Proof.Machine

/-! PROOFS. What an edge leaves: one lemma per field of the states that the commits leave, and everything a step can do,
for proofs about invariants to split on (43_session.md rules R150 to R161). -/

namespace Sys2Proof.Machine

section
variable (s : State)

@[simp] theorem changed_n : (changed s).n = s.n + 1 := terminationTest_n _ _ _
@[simp] theorem changed_lvl : (changed s).lvl = s.env.ports.levelIn := terminationTest_lvl _ _ _
@[simp] theorem changed_bnd : (changed s).bnd = s.env.ports.tickIn := terminationTest_bnd _ _ _
@[simp] theorem changed_bud : (changed s).bud = s.bud - intervalTicks (elapsed s) := terminationTest_bud _ _ _
@[simp] theorem changed_bounded : (changed s).bounded = s.bounded := terminationTest_bounded _ _ _
@[simp] theorem changed_buf : (changed s).buf = Memory.writeWord s.buf s.n (encShort (elapsed s) s.lvl) :=
  terminationTest_buf _ _ _
@[simp] theorem changed_par : (changed s).par = s.par := terminationTest_par _ _ _
@[simp] theorem changed_env : (changed s).env = s.env := terminationTest_env _ _ _

@[simp] theorem timedOut_n : (timedOut s).n = s.n + 1 := terminationTest_n _ _ _
@[simp] theorem timedOut_lvl : (timedOut s).lvl = s.lvl := terminationTest_lvl _ _ _
@[simp] theorem timedOut_bnd : (timedOut s).bnd = advanced s.bnd := terminationTest_bnd _ _ _
@[simp] theorem timedOut_bud : (timedOut s).bud = s.bud - unitTicks := terminationTest_bud _ _ _
@[simp] theorem timedOut_bounded : (timedOut s).bounded = s.bounded := terminationTest_bounded _ _ _
@[simp] theorem timedOut_buf : (timedOut s).buf = Memory.writeWord s.buf s.n (encLong 1 s.lvl) := terminationTest_buf _ _ _
@[simp] theorem timedOut_par : (timedOut s).par = s.par := terminationTest_par _ _ _
@[simp] theorem timedOut_env : (timedOut s).env = s.env := terminationTest_env _ _ _

@[simp] theorem mergedInto_n : (mergedInto s).n = s.n := terminationTest_n _ _ _
@[simp] theorem mergedInto_lvl : (mergedInto s).lvl = s.lvl := terminationTest_lvl _ _ _
@[simp] theorem mergedInto_bnd : (mergedInto s).bnd = advanced s.bnd := terminationTest_bnd _ _ _
@[simp] theorem mergedInto_bud : (mergedInto s).bud = s.bud - unitTicks := terminationTest_bud _ _ _
@[simp] theorem mergedInto_bounded : (mergedInto s).bounded = s.bounded := terminationTest_bounded _ _ _
@[simp] theorem mergedInto_buf : (mergedInto s).buf =
    Memory.writeWord s.buf (s.n - 1) (bumpCount (bufRead s (s.n - 1))) := terminationTest_buf _ _ _
@[simp] theorem mergedInto_par : (mergedInto s).par = s.par := terminationTest_par _ _ _
@[simp] theorem mergedInto_env : (mergedInto s).env = s.env := terminationTest_env _ _ _
end

/-- TERMINATION_TEST leads a session to no third state, and a full buffer never lets it run on (R158). -/
theorem terminationTest_ne_idle {s : State} (n' : Nat) (bud' : Budget) (h : s.st = .running) :
    (terminationTest s n' bud').st ≠ .idle := by
  rcases terminationTest_cases s n' bud' with ⟨-, ht⟩ | ⟨-, -, ht⟩
  · simp [ht]
  · simp [ht, h]

theorem terminationTest_room {s : State} {n' : Nat} {bud' : Budget} (h : (terminationTest s n' bud').st = .running) :
    (terminationTest s n' bud').n ≠ (terminationTest s n' bud').par.nmax := by
  rcases terminationTest_cases s n' bud' with ⟨-, ht⟩ | ⟨hn, -, -⟩
  · simp [ht] at h
  · simpa using hn

/-- The state `t` is one that a clock edge can leave at the state `s`, whose wires the edge has driven: one constructor
per operation of R150, the two holds taken together, with the conditions that select it. -/
inductive EdgeTo (s : State) : State → Prop where
  | reset (hrst : s.env.ports.rst = true) : EdgeTo s (resetRegisters s)
  | start (hrst : s.env.ports.rst = false) (hst : s.st ≠ .running) (hstart : s.env.ports.start = true) :
      EdgeTo s (beginSession s)
  | hold (hrst : s.env.ports.rst = false) (hst : s.st ≠ .running) (hstart : s.env.ports.start = false) :
      EdgeTo s (setIndicators s false false)
  | full (hrst : s.env.ports.rst = false) (hst : s.st = .running) (hn : s.n = s.par.nmax) :
      EdgeTo s (terminationTest s s.n s.bud)
  | merge (hrst : s.env.ports.rst = false) (hst : s.st = .running) (hn : s.n < s.par.nmax) (htmo : tmo s = true)
      (hmrg : mrg s = true) : EdgeTo s (mergedInto s)
  | append (hrst : s.env.ports.rst = false) (hst : s.st = .running) (hn : s.n < s.par.nmax) (htmo : tmo s = true)
      (hmrg : mrg s = false) : EdgeTo s (timedOut s)
  | change (hrst : s.env.ports.rst = false) (hst : s.st = .running) (hn : s.n < s.par.nmax) (htmo : tmo s = false)
      (hchg : chg s = true) : EdgeTo s (changed s)
  | wait (hrst : s.env.ports.rst = false) (hst : s.st = .running) (hn : s.n ≠ s.par.nmax) (htmo : tmo s = false)
      (hchg : chg s = false) : EdgeTo s (setIndicators s true false)

/-- Every edge that completes leaves one of these states; beyond `NMAX` the commits do not complete (log 8). -/
theorem edgeTo_of_exec {s t : State} (h : exec (decodeSelector (selector s)) s = .next t) : EdgeTo s t := by
  rcases edge_cases s with ⟨hrst, -, hx⟩ | ⟨hrst, hst, hstart, -, hx⟩ | ⟨hrst, hst, hstart, -, hx⟩ |
    ⟨hrst, hst, hstart, -, hx⟩ | ⟨hrst, hst, hn, -, hx⟩ | ⟨hrst, hst, hn, htmo, hmrg, -, hx⟩ |
    ⟨hrst, hst, hn, htmo, hmrg, -, hx⟩ | ⟨hrst, hst, hn, htmo, hchg, -, hx⟩ | ⟨hrst, hst, hn, htmo, hchg, -, hx⟩ <;>
    rw [hx] at h
  · cases h; exact .reset hrst
  · cases h; exact .start hrst hst hstart
  · cases h; exact .hold hrst (by simp [hst]) hstart
  · cases h; exact .hold hrst (by simp [hst]) hstart
  · cases h; exact .full hrst hst hn
  · rcases Nat.lt_or_gt_of_ne hn with hlt | hgt
    · rw [execRunTmoMerge_of_room (pos_of_mrg hmrg) hlt] at h; cases h
      exact .merge hrst hst hlt htmo hmrg
    · rw [execRunTmoMerge_of_beyond hgt] at h; cases h
  · rcases Nat.lt_or_gt_of_ne hn with hlt | hgt
    · rw [execRunTmoAppend_of_room hlt] at h; cases h
      exact .append hrst hst hlt htmo hmrg
    · rw [execRunTmoAppend_of_beyond hgt] at h; cases h
  · rcases Nat.lt_or_gt_of_ne hn with hlt | hgt
    · rw [execRunChange_of_room hlt] at h; cases h
      exact .change hrst hst hlt htmo hchg
    · rw [execRunChange_of_beyond hgt] at h; cases h
  · cases h; exact .wait hrst hst hn htmo hchg

/-- A step at a scripted edge. -/
theorem edgeTo_of_step_clock {s t : State} {p : Ports} {rest : List HostEvent} (hp : s.env.pending = .clock p :: rest)
    (h : step s = .next t) : EdgeTo (driveEdge s p rest) t :=
  edgeTo_of_exec (step_clock hp ▸ h)

/-- A step with no event left: an edge with free inputs (log 3). -/
theorem edgeTo_of_step_free {s t : State} (hp : s.env.pending = []) (h : step s = .next t) :
    EdgeTo (driveEdge s (freePorts s.env.edges) []) t := by
  apply edgeTo_of_exec
  simpa [step, fetch, hp, fetchEdge] using h

/-- What holds whatever the environment is, and is kept by every edge and by the reset of a forced one, is kept by every
step. -/
theorem step_keeps {P : State → Prop} (henv : ∀ s e, P s → P { s with env := e })
    (hreset : ∀ s, P s → P (resetRegisters s)) (hedge : ∀ s t, P s → EdgeTo s t → P t) {s t : State} (hs : P s)
    (h : step s = .next t) : P t := by
  rcases step_cases s t h with ⟨u, hu, hx⟩ | ⟨u, hu, rfl⟩ | ht
  · refine hedge u t ?_ (edgeTo_of_exec hx)
    rw [hu]; exact henv s _ hs
  · refine hreset u ?_
    rw [hu]; exact henv s _ hs
  · rw [ht]; exact henv s _ hs

end Sys2Proof.Machine

/-! PROOFS. The invariants of the trace buffer hold after RESET and every step keeps them (10_state.md rules R40 to R42,
30_encoding.md rule R86, 42_encoder.md rule R139). -/

namespace Sys2Proof.Machine

namespace TraceInv

/-- With no records, only the parameters and the memory itself matter; RESET and START leave such a state. -/
theorem of_no_records {s : State} (hpar : s.par.Valid) (hwf : Memory.wf s.buf = true)
    (hin : ∀ c ∈ s.buf, c.1 < 4 * s.par.nmax) (hn : s.n = 0) : TraceInv s where
  params := hpar
  canonical := hwf
  inBuffer := hin
  count := by omega
  room _ := hn ▸ hpar.1
  idle _ := hn
  written i hi := by omega
  last _ h := by omega
  neighbours _ _ _ h := by omega
  saturated _ _ _ h := by omega

variable {s t : State} {w : Word}

/-- The invariants speak of the session state, the records, the level and the parameters alone. -/
theorem frame (h : TraceInv s) (hst : t.st = s.st) (hn : t.n = s.n) (hlvl : t.lvl = s.lvl) (hbuf : t.buf = s.buf)
    (hpar : t.par = s.par) : TraceInv t where
  params := hpar ▸ h.params
  canonical := hbuf ▸ h.canonical
  inBuffer := by rw [hbuf, hpar]; exact h.inBuffer
  count := by rw [hn, hpar]; exact h.count
  room := by rw [hst, hn, hpar]; exact h.room
  idle := by rw [hst, hn]; exact h.idle
  written := by rw [hn, hbuf]; exact h.written
  last := by rw [hn, hbuf, hlvl]; exact h.last
  neighbours := by rw [hn, hbuf]; exact h.neighbours
  saturated := by rw [hn, hbuf]; exact h.saturated

/-- The last record, where there is one: what a read of it finds. -/
theorem exists_last (h : TraceInv s) (hn : 0 < s.n) :
    ∃ w, Memory.readWord s.buf (s.n - 1) = some w ∧ bufRead s (s.n - 1) = w := by
  obtain ⟨w, hw, -⟩ := h.written (s.n - 1) (by omega)
  exact ⟨w, hw, bufRead_of_readWord hw⟩

/-- A write at an existing index stays within the address map (R68). -/
theorem inBuffer_writeWord (h : TraceInv s) {i : Nat} (hi : i < s.par.nmax) :
    ∀ c ∈ Memory.writeWord s.buf i w, c.1 < 4 * s.par.nmax := by
  intro c hc
  rcases Memory.mem_writeWord _ _ _ _ hc with hc | hc
  · omega
  · exact h.inBuffer c hc

/-- An append of a record `w` of the old level keeps the invariants, when `w` is long exactly if the level stays, and a
long `w` follows no long record but a saturated one. -/
theorem append (h : TraceInv s) (hroom : s.n < s.par.nmax) (hbuf : t.buf = Memory.writeWord s.buf s.n w)
    (hn : t.n = s.n + 1) (hpar : t.par = s.par) (hidle : t.st ≠ .idle) (hrun : t.st = .running → t.n ≠ t.par.nmax)
    (hsmp : recSmp w = s.lvl) (hlvl : recSmp w = t.lvl ↔ recFmt w = true) (hcnt : recFmt w = true → recCnt w ≠ 0)
    (hsat : recFmt w = true → ∀ v, 0 < s.n → Memory.readWord s.buf (s.n - 1) = some v → recFmt v = true →
      (recCnt v).toNat = CMAX) : TraceInv t := by
  have hread : ∀ j, Memory.readWord t.buf j = if j = s.n then some w else Memory.readWord s.buf j := fun j => by
    rw [hbuf, Memory.readWord_writeWord]
  exact {
    params := hpar ▸ h.params
    canonical := hbuf ▸ Memory.wf_writeWord _ _ _ h.canonical
    inBuffer := by rw [hbuf, hpar]; exact h.inBuffer_writeWord hroom
    count := by rw [hn, hpar]; exact hroom
    room := fun hr => by
      have := hrun hr
      rw [hn, hpar] at this ⊢
      omega
    idle := fun hi => absurd hi hidle
    written := fun i hi => by
      rw [hread]
      split
      · exact ⟨w, rfl, hcnt⟩
      · exact h.written i (by omega)
    last := fun v _ hv => by
      rw [hread, if_pos (by omega)] at hv
      cases hv
      exact hlvl
    neighbours := fun i v v' hi hv hv' => by
      rw [hread, if_neg (by omega)] at hv
      rw [hread] at hv'
      split at hv'
      · next hi' =>
        cases hv'
        rw [hsmp]
        exact h.last v (by omega) (by rw [← hi']; exact hv)
      · exact h.neighbours i v v' (by omega) hv hv'
    saturated := fun i v v' hi hv hv' hf hf' => by
      rw [hread, if_neg (by omega)] at hv
      rw [hread] at hv'
      split at hv'
      · next hi' =>
        cases hv'
        exact hsat hf' v (by omega) (by rw [← hi']; exact hv) hf
      · exact h.saturated i v v' (by omega) hv hv' hf hf' }

/-- A last record written again as `w`, with its format and sample kept, keeps the invariants. -/
theorem replaceLast {v : Word} (h : TraceInv s) (hpos : 0 < s.n) (hv : Memory.readWord s.buf (s.n - 1) = some v)
    (hbuf : t.buf = Memory.writeWord s.buf (s.n - 1) w) (hn : t.n = s.n) (hlvl : t.lvl = s.lvl) (hpar : t.par = s.par)
    (hidle : t.st ≠ .idle) (hrun : t.st = .running → t.n ≠ t.par.nmax) (hfmt : recFmt w = recFmt v)
    (hsmp : recSmp w = recSmp v) (hcnt : recFmt w = true → recCnt w ≠ 0) : TraceInv t := by
  have hread : ∀ j, Memory.readWord t.buf j = if j = s.n - 1 then some w else Memory.readWord s.buf j := fun j => by
    rw [hbuf, Memory.readWord_writeWord]
  have hcount := h.count
  exact {
    params := hpar ▸ h.params
    canonical := hbuf ▸ Memory.wf_writeWord _ _ _ h.canonical
    inBuffer := by rw [hbuf, hpar]; exact h.inBuffer_writeWord (by omega)
    count := by rw [hn, hpar]; exact h.count
    room := fun hr => by
      have := hrun hr
      rw [hn, hpar] at this ⊢
      omega
    idle := fun hi => absurd hi hidle
    written := fun i hi => by
      rw [hread]
      split
      · exact ⟨w, rfl, hcnt⟩
      · exact h.written i (by omega)
    last := fun u _ hu => by
      rw [hread, if_pos (by omega)] at hu
      cases hu
      rw [hfmt, hsmp, hlvl]
      exact h.last v hpos hv
    neighbours := fun i u u' hi hu hu' => by
      rw [hread, if_neg (by omega)] at hu
      rw [hread] at hu'
      split at hu'
      · next hi' =>
        cases hu'
        rw [hsmp]
        exact h.neighbours i u v (by omega) hu (by rw [hi']; exact hv)
      · exact h.neighbours i u u' (by omega) hu hu'
    saturated := fun i u u' hi hu hu' hf hf' => by
      rw [hread, if_neg (by omega)] at hu
      rw [hread] at hu'
      split at hu'
      · next hi' =>
        cases hu'
        exact h.saturated i u v (by omega) hu (by rw [hi']; exact hv) hf (hfmt ▸ hf')
      · exact h.saturated i u u' (by omega) hu hu' hf hf' }

/-- Where MERGE_TEST accepts, the last record is a long one of the committed level with room in its count (R132). -/
theorem last_of_mrg (h : TraceInv s) (hm : mrg s = true) :
    ∃ w, Memory.readWord s.buf (s.n - 1) = some w ∧ bufRead s (s.n - 1) = w ∧ recFmt w = true ∧ (recCnt w).toNat ≠ CMAX := by
  obtain ⟨w, hw, hb⟩ := h.exists_last (pos_of_mrg hm)
  rw [mrg, hb, Bool.and_eq_true, mergeable_iff] at hm
  obtain ⟨-, hf, -, hc⟩ := hm
  exact ⟨w, hw, hb, hf, hc⟩

/-- Where MERGE_TEST refuses, a long last record is saturated, since it has the committed level (R132, R139). -/
theorem saturated_of_not_mrg (h : TraceInv s) (hm : mrg s = false) (w : Word) (hn : 0 < s.n)
    (hw : Memory.readWord s.buf (s.n - 1) = some w) (hf : recFmt w = true) : (recCnt w).toNat = CMAX := by
  by_contra hc
  have hmerge := (mergeable_iff w s.lvl).2 ⟨hf, (h.last w hn hw).2 hf, hc⟩
  simp [mrg, bufRead_of_readWord hw, hmerge, hn] at hm

theorem keptByReset (h : TraceInv s) : TraceInv (resetRegisters s) :=
  of_no_records h.params h.canonical h.inBuffer rfl

theorem keptByMerge (h : TraceInv s) (hst : s.st = .running) (hm : mrg s = true) : TraceInv (mergedInto s) := by
  obtain ⟨w, hw, hb, -, hc⟩ := h.last_of_mrg hm
  refine h.replaceLast (w := bumpCount w) (pos_of_mrg hm) hw ?_ (mergedInto_n s) (mergedInto_lvl s) (mergedInto_par s)
    (terminationTest_ne_idle _ _ hst) terminationTest_room (recFmt_bumpCount w) (recSmp_bumpCount w) fun _ => ?_
  · rw [mergedInto_buf, hb]
  · rw [recCnt_bumpCount]
    exact count_add_one_ne_zero hc

theorem keptByTimeout (h : TraceInv s) (hst : s.st = .running) (hroom : s.n < s.par.nmax) (hm : mrg s = false) :
    TraceInv (timedOut s) :=
  h.append hroom (timedOut_buf s) (timedOut_n s) (timedOut_par s) (terminationTest_ne_idle _ _ hst) terminationTest_room
    (recSmp_encLong _ _) (by simp) (by simp) fun _ => h.saturated_of_not_mrg hm

theorem keptByChange (h : TraceInv s) (hst : s.st = .running) (hroom : s.n < s.par.nmax) (hc : chg s = true) :
    TraceInv (changed s) := by
  have hlvl : s.lvl ≠ s.env.ports.levelIn := ((chg_eq_true_iff s).1 hc).symm
  exact h.append hroom (changed_buf s) (changed_n s) (changed_par s) (terminationTest_ne_idle _ _ hst)
    terminationTest_room (recSmp_encShort _ _) (by simp [hlvl]) (by simp) (by simp)

/-- Every edge keeps the invariants. A running session has room, so RUN_FULL is not among them (R159). -/
theorem keptByEdge (h : TraceInv s) (he : EdgeTo s t) : TraceInv t := by
  cases he with
  | reset => exact h.keptByReset
  | start => exact of_no_records h.params h.canonical h.inBuffer rfl
  | hold => exact h.frame rfl rfl rfl rfl rfl
  | full _ hst hn => exact absurd hn (h.room hst).ne
  | merge _ hst _ _ hmrg => exact h.keptByMerge hst hmrg
  | append _ hst hn _ hmrg => exact h.keptByTimeout hst hn hmrg
  | change _ hst hn _ hchg => exact h.keptByChange hst hn hchg
  | wait => exact h.frame rfl rfl rfl rfl rfl

end TraceInv

/-- Settles O41: a record is appended or written again so that the last record's sample tells its format, and every
other step leaves the records or drops them all. -/
theorem stepKeepsTraceInvariant : Obligations.StepKeepsTraceInvariant := fun _ _ hs hstep =>
  step_keeps (fun _ _ h => h.frame rfl rfl rfl rfl rfl) (fun _ h => h.keptByReset) (fun _ _ h he => h.keptByEdge he) hs hstep

theorem resetWith_traceInv {p : Params} (hp : p.Valid) : TraceInv (State.resetWith p) :=
  TraceInv.of_no_records hp rfl (fun _ hc => absurd hc List.not_mem_nil) rfl

/-- No flag and no indicator stands after RESET (R40). -/
theorem resetWith_statusInv (p : Params) : StatusInv (State.resetWith p) where
  finished h := by cases h
  stopped h := by cases h
  clear _ := ⟨rfl, rfl⟩
  left h := by cases h
  down _ := ⟨rfl, rfl⟩
  apart h := Bool.false_ne_true h.1

/-- The machine's own parameters, open as they are, lie within the bounds of R8 (log 2). -/
theorem configured_valid : Params.configured.Valid := by
  have hn := Config.nmaxLessOne.isLt
  have ht := Config.ticksPerMsLessOne.isLt
  simp only [Params.Valid, Params.configured]
  omega

/-- Settles O40: a state with no records, no flag and no indicator meets both invariants. -/
theorem resetMeetsTheInvariants : Obligations.ResetMeetsTheInvariants :=
  ⟨fun p hp => ⟨resetWith_traceInv hp, resetWith_statusInv p⟩, resetWith_traceInv configured_valid, resetWith_statusInv _⟩

/-- Settles O39: the machine's reset state is `State.resetWith`, field by field, and its memory is empty. -/
theorem resetStateHoldsTheResetValues : Obligations.ResetStateHoldsTheResetValues :=
  ⟨rfl, rfl, rfl, rfl, rfl, rfl, rfl, rfl, rfl, rfl, Memory.read_nil⟩

end Sys2Proof.Machine

/-! PROOFS. What the status flags, the indicators and the outputs say (10_state.md rules R28, R36, R43; 43_session.md
rules R158, R165, R173). -/

namespace Sys2Proof.Machine

/-- A word below `2^63` has itself as its two's-complement value. -/
theorem toInt_ofNat_of_lt {k : Nat} (h : k < 2 ^ 63) : (BitVec.ofNat 64 k).toInt = k := by
  rw [BitVec.toInt_eq_toNat_of_lt] <;> rw [BitVec.toNat_ofNat] <;> omega

/-- Within R8's bounds START's product is below `2^62` (R27). -/
theorem startProduct_lt {p : Params} (h : p.Valid) (tmaxMs : BitVec 32) : tmaxMs.toNat * p.ticksPerMs < 2 ^ 62 := by
  obtain ⟨-, -, hpos, hticks⟩ := h
  calc tmaxMs.toNat * p.ticksPerMs < 2 ^ 32 * p.ticksPerMs := Nat.mul_lt_mul_of_pos_right tmaxMs.isLt hpos
    _ ≤ 2 ^ 32 * 2 ^ 30 := Nat.mul_le_mul_left _ hticks
    _ = 2 ^ 62 := by norm_num

/-- START's budget is the exact product (R151). -/
theorem toInt_startBudget {s : State} (h : s.par.Valid) :
    (startBudget s).toInt = (s.env.ports.tmaxMs.toNat : Int) * s.par.ticksPerMs := by
  have := startProduct_lt h s.env.ports.tmaxMs
  rw [startBudget, toInt_ofNat_of_lt (by omega), Nat.cast_mul]

namespace StatusInv

variable {s t : State}

theorem frame (h : StatusInv s) (hst : t.st = s.st) (hn : t.n = s.n) (hbud : t.bud = s.bud)
    (hbounded : t.bounded = s.bounded) (hfull : t.termFull = s.termFull) (hbudget : t.termBudget = s.termBudget)
    (hwait : t.indWait = s.indWait) (hactive : t.indActive = s.indActive) (hpar : t.par = s.par) : StatusInv t where
  finished := by rw [hst, hn, hbud, hbounded, hfull, hbudget, hpar]; exact h.finished
  stopped := by rw [hst, hfull, hbudget]; exact h.stopped
  clear := by rw [hst, hfull, hbudget]; exact h.clear
  left := by rw [hst, hbud, hbounded]; exact h.left
  down := by rw [hst, hwait, hactive]; exact h.down
  apart := by rw [hwait, hactive]; exact h.apart

/-- The holds and RUN_WAIT write the indicators alone; the waiting one rises only in a running session. -/
theorem keptBySetIndicators (h : StatusInv s) {wait : Bool} (hwait : s.st ≠ .running → wait = false) :
    StatusInv (setIndicators s wait false) where
  finished := h.finished
  stopped := h.stopped
  clear := h.clear
  left := h.left
  down hst := ⟨hwait hst, rfl⟩
  apart hind := Bool.false_ne_true hind.2

theorem of_resetRegisters (s : State) : StatusInv (resetRegisters s) where
  finished h := by cases h
  stopped h := by cases h
  clear _ := ⟨rfl, rfl⟩
  left h := by cases h
  down _ := ⟨rfl, rfl⟩
  apart h := Bool.false_ne_true h.1

/-- TERMINATION_TEST in a running session sets the flags to its two stop conditions or leaves them down (R158, R173). -/
theorem of_terminationTest (n' : Nat) (bud' : Budget) (hst : s.st = .running) (hfull : s.termFull = false)
    (hbudget : s.termBudget = false) : StatusInv (terminationTest s n' bud') := by
  rcases terminationTest_cases s n' bud' with ⟨hstop, ht⟩ | ⟨-, hleft, ht⟩ <;> rw [ht]
  · exact {
      finished := fun _ => ⟨rfl, rfl⟩
      stopped := fun _ => by simpa using hstop
      clear := fun h => absurd rfl h
      left := fun h => by cases h
      down := fun _ => ⟨rfl, rfl⟩
      apart := fun h => Bool.false_ne_true h.1 }
  · exact {
      finished := fun h => by simp [hst] at h
      stopped := fun h => by simp [hst] at h
      clear := fun _ => ⟨hfull, hbudget⟩
      left := fun _ hb => not_lt.1 fun hneg => hleft ⟨hb, hneg⟩
      down := fun h => absurd hst h
      apart := fun h => Bool.false_ne_true h.1 }


/-- START lowers the flags and opens a budget that is not negative (R151). -/
theorem of_beginSession (h : s.par.Valid) : StatusInv (beginSession s) where
  finished h := by cases h
  stopped h := by cases h
  clear _ := ⟨rfl, rfl⟩
  left _ _ := by
    rw [beginSession_bud, toInt_startBudget h]
    positivity
  down h := absurd rfl h
  apart h := Bool.false_ne_true h.2

/-- Every edge keeps what the flags and indicators mean. -/
theorem keptByEdge (h : StatusInv s) (hpar : s.par.Valid) (he : EdgeTo s t) : StatusInv t := by
  have hclear (hst : s.st = .running) := h.clear (by simp [hst])
  cases he with
  | reset => exact of_resetRegisters s
  | start => exact of_beginSession hpar
  | hold => exact h.keptBySetIndicators fun _ => rfl
  | full _ hst => exact of_terminationTest _ _ hst (hclear hst).1 (hclear hst).2
  | merge _ hst => exact of_terminationTest _ _ hst (hclear hst).1 (hclear hst).2
  | append _ hst => exact of_terminationTest _ _ hst (hclear hst).1 (hclear hst).2
  | change _ hst => exact of_terminationTest _ _ hst (hclear hst).1 (hclear hst).2
  | wait _ hst => exact h.keptBySetIndicators fun hnot => absurd hst hnot

end StatusInv

/-- Settles O42: TERMINATION_TEST sets the flags from its own stop conditions, and START's product is not negative. -/
theorem stepKeepsStatusInvariant : Obligations.StepKeepsStatusInvariant := fun _ _ htrace hstatus hstep =>
  (step_keeps (P := fun s => TraceInv s ∧ StatusInv s)
    (fun _ _ ⟨h, h'⟩ => ⟨h.frame rfl rfl rfl rfl rfl, h'.frame rfl rfl rfl rfl rfl rfl rfl rfl rfl⟩)
    (fun s ⟨h, _⟩ => ⟨h.keptByReset, StatusInv.of_resetRegisters s⟩)
    (fun _ _ ⟨h, h'⟩ he => ⟨h.keptByEdge he, h'.keptByEdge h.params he⟩) ⟨htrace, hstatus⟩ hstep).2

/-- After an edge that ends in RUNNING less than a unit has elapsed: the boundary is the edge's reading (START,
RUN_CHANGE), has moved one unit towards it (the timeouts), or was less than a unit away (RUN_WAIT). -/
theorem elapsedBetween_lt_of_edge {s t : State} (he : EdgeTo s t) (hrun : t.st = .running) :
    (elapsedBetween t.bnd t.env.ports.tickIn).toNat < UNIT := by
  cases he with
  | reset => cases hrun
  | start => simp
  | hold _ hst => exact absurd hrun hst
  | full _ _ hn => exact absurd (by simpa using hn) (terminationTest_room hrun)
  | merge _ _ _ htmo =>
    rw [mergedInto_bnd, mergedInto_env]
    exact elapsedBetween_advanced_lt _ _ ((tmo_eq_true_iff s).1 htmo)
  | append _ _ _ htmo =>
    rw [timedOut_bnd, timedOut_env]
    exact elapsedBetween_advanced_lt _ _ ((tmo_eq_true_iff s).1 htmo)
  | change => simp
  | wait _ _ _ htmo => exact (tmo_eq_false_iff s).1 htmo

/-- Settles O11, for scripted and free inputs alike. -/
theorem elapsedBelowUnitAfterEdge : Obligations.ElapsedBelowUnitAfterEdge := by
  rintro s t (hfree | ⟨p, rest, hp⟩) - hstep hrun
  · exact elapsedBetween_lt_of_edge (edgeTo_of_step_free hfree hstep) hrun
  · exact elapsedBetween_lt_of_edge (edgeTo_of_step_clock hp hstep) hrun

/-- `ceilLog2` is an upper logarithm over the widths of R9. -/
theorem le_two_pow_ceilLog2 {x : Nat} (h : x ≤ 2 ^ 17) : x ≤ 2 ^ ceilLog2 x := by
  have hlt : ceilLog2 x < (List.range 18).length :=
    List.findIdx_lt_length_of_exists ⟨17, by simp, by simpa using h⟩
  have hfound : decide (x ≤ 2 ^ (List.range 18)[ceilLog2 x]) = true := List.findIdx_getElem (w := hlt)
  rwa [List.getElem_range, decide_eq_true_eq] at hfound

/-- Settles O36: the outputs are fields of the state, and `n + 1 <= NMAX + 1` lies within the range of `NW`'s logarithm.
-/
theorem outputsFollowTheState : Obligations.OutputsFollowTheState := by
  intro s
  refine ⟨decide_eq_true_iff, decide_eq_true_iff, rfl, rfl, rfl, rfl, rfl, fun hpar hn => ?_⟩
  obtain ⟨-, hnmax, -, -⟩ := hpar
  calc s.n < s.par.nmax + 1 := by omega
    _ ≤ 2 ^ countWidth s.par := le_two_pow_ceilLog2 (by omega)

end Sys2Proof.Machine

/-! PROOFS. The ledger of a session and the counts of its records (10_state.md rules R42 and R44; 43_session.md rules
R151, R160). -/

namespace Sys2Proof.Machine

/-- Driving the wires of an edge changes no record that has been written. -/
theorem TraceInv.records_driveEdge {s : State} (h : TraceInv s) (p : Ports) (rest : List HostEvent) :
    records (driveEdge s p rest) = records s :=
  records_congr rfl fun i hi => (h.written i hi).imp fun _ hw => ⟨hw.1, hw.1⟩

/-- Settles O43: START empties the records, so what is left of the budget is the whole product. -/
theorem startOpensTheLedger : Obligations.StartOpensTheLedger := by
  intro s t p rest hpar hp hrst hstart hst hstep
  cases edgeTo_of_step_clock hp hstep with
  | start =>
    have hzero : totalDuration (beginSession (driveEdge s p rest)) = 0 := totalDuration_eq_zero rfl
    refine ⟨rfl, fun hb => ?_, fun hb => ?_, ?_, ?_⟩
    · have hlt := startProduct_lt hpar p.tmaxMs
      have hpos : 0 < p.tmaxMs.toNat * s.par.ticksPerMs := by
        refine Nat.mul_pos (Nat.pos_of_ne_zero fun h0 => ?_) hpar.2.2.1
        exact bne_iff_ne.1 hb (BitVec.eq_of_toNat_eq h0)
      exact_mod_cast And.intro hpos hlt
    · have h0 : p.tmaxMs = 0 := by simpa using hb
      simp [h0]
    · rw [hzero, beginSession_bud, toInt_startBudget (s := driveEdge s p rest) hpar]
      simp
    · simp [hzero]
  | reset h => simp [hrst] at h
  | hold _ _ h => simp [hstart] at h
  | full _ h => exact absurd h hst
  | merge _ h => exact absurd h hst
  | append _ h => exact absurd h hst
  | change _ h => exact absurd h hst
  | wait _ h => exact absurd h hst

namespace Ledger

variable {s t : State} {budget : Int} {start : Tick}

/-- An edge that writes no record keeps the ledger. -/
theorem frame (h : Ledger budget start s) (hrec : records t = records s) (hbud : t.bud = s.bud) (hbnd : t.bnd = s.bnd)
    (hbounded : t.bounded = s.bounded) : Ledger budget start t where
  boundedStart := hbounded ▸ h.boundedStart
  unboundedStart := hbounded ▸ h.unboundedStart
  balance := by rw [totalDuration, hrec, hbud]; exact h.balance
  boundary := by rw [totalDuration, hrec, hbnd]; exact h.boundary

theorem budget_bounds (h : Ledger budget start s) : 0 ≤ budget ∧ budget < 2 ^ 62 := by
  cases hb : s.bounded with
  | true => exact ⟨(h.boundedStart hb).1.le, (h.boundedStart hb).2⟩
  | false => rw [h.unboundedStart hb]; decide

/-- A commit of `ticks` ticks keeps the ledger: the budget left is above `-2^62`, far from where the register would wrap
(R27). -/
theorem commit (h : Ledger budget start s) (ticks : Nat) (hdur : totalDuration t = totalDuration s + ticks)
    (hlt : totalDuration t < 2 ^ 62) (hbud : t.bud = s.bud - BitVec.ofNat 64 ticks)
    (hbnd : t.bnd = s.bnd - BitVec.ofNat 24 ticks) (hbounded : t.bounded = s.bounded) : Ledger budget start t where
  boundedStart := hbounded ▸ h.boundedStart
  unboundedStart := hbounded ▸ h.unboundedStart
  balance := by
    obtain ⟨hlow, hhigh⟩ := h.budget_bounds
    rw [hbud, BitVec.toInt_sub, h.balance, toInt_ofNat_of_lt (by omega), Int.bmod_eq_of_le (by omega) (by omega)]
    omega
  boundary := by
    rw [hbnd, h.boundary, hdur, BitVec.ofNat_add]
    exact BitVec.sub_sub _ _ _

/-- Every edge but a reset or a START keeps the ledger. -/
theorem keptByEdge (h : Ledger budget start s) (hinv : TraceInv s) (he : EdgeTo s t) (hrst : s.env.ports.rst = false)
    (hnostart : s.st = .running ∨ s.env.ports.start = false) : Ledger budget start t := by
  have hlt : totalDuration t < 2 ^ 62 := by
    have hinv' := hinv.keptByEdge he
    exact totalDuration_lt (hinv'.count.trans hinv'.params.2.1)
  cases he with
  | reset hr => simp [hrst] at hr
  | start _ hst hs => simp [hst, hs] at hnostart
  | hold => exact h.frame rfl rfl rfl rfl
  | full _ hst hn => exact absurd hn (hinv.room hst).ne
  | merge _ _ _ _ hmrg =>
    obtain ⟨w, -, hb, hf, hc⟩ := hinv.last_of_mrg hmrg
    have hdur := totalDuration_merge (pos_of_mrg hmrg)
      (records_merge (mergedInto_env s) (mergedInto_buf s) (mergedInto_n s) (pos_of_mrg hmrg))
    rw [hb, recordDuration_bumpCount hf hc] at hdur
    exact h.commit UNIT (by omega) hlt (mergedInto_bud s) (mergedInto_bnd s) (mergedInto_bounded s)
  | append =>
    have hdur := totalDuration_append (records_append (timedOut_env s) (timedOut_buf s) (timedOut_n s))
    rw [recordDuration_encLong_one] at hdur
    exact h.commit UNIT hdur hlt (timedOut_bud s) (timedOut_bnd s) (timedOut_bounded s)
  | change _ _ _ htmo =>
    have hdur := totalDuration_append (records_append (changed_env s) (changed_buf s) (changed_n s))
    rw [recordDuration_encShort _ ((tmo_eq_false_iff s).1 htmo)] at hdur
    refine h.commit (elapsed s).toNat hdur hlt ?_ ?_ (changed_bounded s)
    · rw [changed_bud, intervalTicks, BitVec.ofNat_toNat]
    · rw [changed_bnd, BitVec.ofNat_toNat, BitVec.setWidth_eq, elapsed, elapsedBetween, sub_sub_cancel]
  | wait => exact h.frame rfl rfl rfl rfl

end Ledger

/-- Only a reset leads a session back to IDLE. -/
theorem EdgeTo.ne_idle {s t : State} (he : EdgeTo s t) (hst : s.st ≠ .idle) (hrst : s.env.ports.rst = false) :
    t.st ≠ .idle := by
  cases he with
  | reset hr => simp [hrst] at hr
  | start => simp
  | hold => exact hst
  | full _ hrun => exact terminationTest_ne_idle _ _ hrun
  | merge _ hrun => exact terminationTest_ne_idle _ _ hrun
  | append _ hrun => exact terminationTest_ne_idle _ _ hrun
  | change _ hrun => exact terminationTest_ne_idle _ _ hrun
  | wait => exact hst

/-- Settles O44: each commit takes its record's duration off the budget and the boundary alike. -/
theorem edgeKeepsTheLedger : Obligations.EdgeKeepsTheLedger := by
  intro s t p rest budget start hinv _ hst hledger hp hrst hnostart hstep
  have he := edgeTo_of_step_clock hp hstep
  have hinv' : TraceInv (driveEdge s p rest) := hinv.frame rfl rfl rfl rfl rfl
  have hledger' : Ledger budget start (driveEdge s p rest) :=
    hledger.frame (hinv.records_driveEdge p rest) rfl rfl rfl
  exact ⟨he.ne_idle hst hrst, hledger'.keptByEdge hinv' he hrst hnostart⟩

/-- With a spacing of at least one tick and at most half a unit after a reading less than a unit from the boundary, some
tick has elapsed and the 24-bit difference has not wrapped (R230, R231). -/
theorem elapsedBetween_pos_of_spacedBy {bnd previous current : Tick} (hlt : (elapsedBetween bnd previous).toNat < UNIT)
    (hspaced : spacedBy previous current) : 0 < (elapsedBetween bnd current).toNat := by
  obtain ⟨hlow, hhigh⟩ := hspaced
  have hlt' : (elapsedBetween bnd previous).toNat < 2 ^ 23 := hlt
  rw [← elapsedBetween_add bnd previous current, BitVec.toNat_add, Nat.mod_eq_of_lt] <;> omega

/-- An edge adds no count-0 record where a level change finds some tick elapsed: RUN_CHANGE is the one operation that
could. -/
theorem EdgeTo.counts_ne_zero {s t : State} (he : EdgeTo s t) (hinv : TraceInv s)
    (helapsed : s.st = .running → 0 < (elapsed s).toNat) (hall : ∀ w ∈ records s, recCnt w ≠ 0) :
    ∀ w ∈ records t, recCnt w ≠ 0 := by
  have hempty {u : State} (hn : u.n = 0) : ∀ w ∈ records u, recCnt w ≠ 0 := by simp [records_eq_nil hn]
  cases he with
  | reset => exact hempty rfl
  | start => exact hempty rfl
  | hold => exact hall
  | full _ hst hn => exact absurd hn (hinv.room hst).ne
  | merge _ _ _ _ hmrg =>
    obtain ⟨v, -, hb, -, hc⟩ := hinv.last_of_mrg hmrg
    have hpos := pos_of_mrg hmrg
    rw [records_eq_earlier s hpos] at hall
    rw [records_merge (mergedInto_env s) (mergedInto_buf s) (mergedInto_n s) hpos, hb]
    simp only [List.forall_mem_append, List.forall_mem_singleton, recCnt_bumpCount] at hall ⊢
    exact ⟨hall.1, count_add_one_ne_zero hc⟩
  | append =>
    rw [records_append (timedOut_env s) (timedOut_buf s) (timedOut_n s), List.forall_mem_append,
      List.forall_mem_singleton, recCnt_encLong]
    exact ⟨hall, by decide⟩
  | change _ hst _ htmo =>
    rw [records_append (changed_env s) (changed_buf s) (changed_n s), List.forall_mem_append, List.forall_mem_singleton]
    refine ⟨hall, fun h0 => ?_⟩
    have hcnt := recCnt_encShort_toNat s.lvl ((tmo_eq_false_iff s).1 htmo)
    rw [h0] at hcnt
    exact (helapsed hst).ne hcnt
  | wait => exact hall

/-- Settles O38: the spacing puts this reading past the boundary, so a change has a tick to record. -/
theorem spacedEdgesRecordPositiveCounts : Obligations.SpacedEdgesRecordPositiveCounts := by
  intro s t p rest hinv _ helapsed hp hspaced hall hstep
  have hinv' : TraceInv (driveEdge s p rest) := hinv.frame rfl rfl rfl rfl rfl
  refine (edgeTo_of_step_clock hp hstep).counts_ne_zero hinv' (fun _ => ?_) ?_
  · exact elapsedBetween_pos_of_spacedBy helapsed hspaced
  · rwa [hinv.records_driveEdge p rest]
end Sys2Proof.Machine

/-! PROOFS. Access to the trace buffer: what a clock edge writes (20_memory.md rule R62), what a read of the port and a
`BufWrite` change (R67), and the byte bus of an integrator (R64). -/

namespace Sys2Proof.Machine

/-! ### The word that an edge writes -/

theorem full_eq_true_iff (s : State) : full s = true ↔ s.n = s.par.nmax := beq_iff_eq

theorem full_eq_false_iff (s : State) : full s = false ↔ s.n ≠ s.par.nmax := beq_eq_false_iff_ne

/-- The selector picks one operation, the first of R150's order whose condition holds. -/
theorem selects_iff_priorityOperation (s : State) (op : Operation) : selects s op ↔ op = priorityOperation s := by
  have hop : (decodeSelector (selector s)).operation = some (priorityOperation s) := by
    rw [selector, decodeSelector_packSelector, priorityOperation]
    cases s.env.ports.rst with
    | true => rfl
    | false =>
      cases s.st with
      | idle => cases s.env.ports.start <;> rfl
      | terminated => cases s.env.ports.start <;> rfl
      | running =>
        cases full s with
        | true => rfl
        | false =>
          cases tmo s with
          | true => cases mrg s <;> rfl
          | false => cases chg s <;> rfl
  rw [selects, hop, Option.some_inj, eq_comm]

/-- Outside a session no edge commits a record. -/
theorem isCommit_priorityOperation_of_not_running {s : State} (h : s.st ≠ .running) :
    isCommit (priorityOperation s) = false := by
  unfold priorityOperation
  cases hst : s.st with
  | running => exact absurd hst h
  | idle => cases s.env.ports.rst <;> cases s.env.ports.start <;> rfl
  | terminated => cases s.env.ports.rst <;> cases s.env.ports.start <;> rfl

/-- What the selected operation leaves of the trace buffer: each of the three commits leaves its own state, and every
other operation leaves the buffer as it is (R62). -/
theorem EdgeTo.commit_cases {s t : State} {op : Operation} (he : EdgeTo s t) (hsel : selects s op) :
    (op = .runChange ∧ t = changed s) ∨ (op = .runTmoAppend ∧ t = timedOut s) ∨
    (op = .runTmoMerge ∧ 0 < s.n ∧ t = mergedInto s) ∨ (isCommit op = false ∧ t.buf = s.buf) := by
  obtain rfl := (selects_iff_priorityOperation s op).1 hsel
  cases he with
  | change hrst hst hn htmo hchg =>
    exact .inl ⟨by simp [priorityOperation, hrst, hst, (full_eq_false_iff s).2 hn.ne, htmo, hchg], rfl⟩
  | append hrst hst hn htmo hmrg =>
    exact .inr (.inl ⟨by simp [priorityOperation, hrst, hst, (full_eq_false_iff s).2 hn.ne, htmo, hmrg], rfl⟩)
  | merge hrst hst hn htmo hmrg =>
    exact .inr (.inr (.inl
      ⟨by simp [priorityOperation, hrst, hst, (full_eq_false_iff s).2 hn.ne, htmo, hmrg], pos_of_mrg hmrg, rfl⟩))
  | reset hrst => exact .inr (.inr (.inr ⟨by simp [priorityOperation, hrst, isCommit], rfl⟩))
  | start _ hst => exact .inr (.inr (.inr ⟨isCommit_priorityOperation_of_not_running hst, rfl⟩))
  | hold _ hst => exact .inr (.inr (.inr ⟨isCommit_priorityOperation_of_not_running hst, rfl⟩))
  | full hrst hst hn =>
    exact .inr (.inr (.inr
      ⟨by simp [priorityOperation, hrst, hst, (full_eq_true_iff s).2 hn, isCommit], terminationTest_buf _ _ _⟩))
  | wait hrst hst hn htmo hchg =>
    exact .inr (.inr (.inr
      ⟨by simp [priorityOperation, hrst, hst, (full_eq_false_iff s).2 hn, htmo, hchg, isCommit], rfl⟩))

/-- A memory that differs by one word write keeps every byte whose word is not the one written (R62). -/
theorem Memory.read_of_word_written {m m' : Memory} {i a : Nat} {w : Word} (hm : m' = Memory.writeWord m i w)
    (h : some i ≠ some (a / 4)) : Memory.read m' a = Memory.read m a := by
  rw [hm, Memory.read_writeWord_other _ _ _ _ fun ha => h (congrArg some ha.symm)]

/-- Settles O30: the two appends write the word at `n` and raise the count, the merge writes the last word, and no other
operation writes the buffer. -/
theorem edgeWritesAtMostOneWord : Obligations.EdgeWritesAtMostOneWord := by
  intro s t p rest op hp hsel hstep
  rcases (edgeTo_of_step_clock hp hstep).commit_cases hsel with
    ⟨rfl, rfl⟩ | ⟨rfl, rfl⟩ | ⟨rfl, hpos, rfl⟩ | ⟨hop, hbuf⟩
  · exact ⟨fun _ => Memory.read_of_word_written (changed_buf _), fun _ _ => changed_n _, by simp⟩
  · exact ⟨fun _ => Memory.read_of_word_written (timedOut_buf _), fun _ _ => timedOut_n _, by simp⟩
  · exact ⟨fun _ => Memory.read_of_word_written (mergedInto_buf _), by simp, fun _ => ⟨hpos, mergedInto_n _⟩⟩
  · refine ⟨fun a _ => congrArg (Memory.read · a) hbuf, ?_, ?_⟩
    · rintro (rfl | rfl) <;> cases hop
    · rintro rfl; cases hop

/-! ### Reads of the port -/

/-- The port's answer depends on the environment through the edge count alone (R67). -/
theorem rdData_of_edges (s : State) {e : Environment} (h : e.edges = s.env.edges) (addr : Nat) :
    rdData { s with env := e } addr = rdData s addr := by
  simp only [rdData, bufRead, bufByte, h]

/-- A read event answers from the state it finds and touches the reader's side alone (R67, R190). -/
theorem step_read {s : State} {addr : Nat} {rest : List HostEvent} (h : s.env.pending = .read addr :: rest) :
    step s = .next { s with
      env := { s.env with
        rdAddr := portAddr s.par addr, pending := rest, rdWord := rdData s (portAddr s.par addr) } } := by
  have hrd : rdData (driveRead s addr rest) (portAddr s.par addr) = rdData s (portAddr s.par addr) :=
    rdData_of_edges s rfl _
  simp only [step, fetch, h, exec, execRead, driveRead_env_rdAddr, hrd]
  rfl

/-- Outside a session the port shows the stored record (R190). -/
theorem rdData_of_record {s : State} {i : Nat} {w : Word} (hst : s.st ≠ .running) (hi : i < s.n) (hn : s.n ≤ s.par.nmax)
    (hw : Memory.readWord s.buf i = some w) : rdData s i = w := by
  rw [rdData, if_neg hst, if_neg (by omega), if_pos hi, bufRead_of_readWord hw]

/-- Settles O32: a read leaves the edge count alone, so the second finds what the first found. -/
theorem repeatedReadsAgree : Obligations.RepeatedReadsAgree := by
  refine ⟨fun s addr rest hp => ?_, fun s i w hi => ?_⟩
  · exact ⟨_, _, step_read hp, step_read rfl, rdData_of_edges s rfl _, rfl, rfl⟩
  · exact ⟨_, bufWrite_eq_some.2 ⟨hi, rfl⟩, rfl, Memory.readWord_writeWord_same _ _ _,
      fun a ha => Memory.read_writeWord_other _ _ _ _ ha⟩

/-! ### The byte bus -/

/-- The bus shows the lanes of a finished session's record at the record's four addresses (R64, R68). -/
theorem busByte_of_record {s : State} {i k : Nat} {w : Word} (hinv : TraceInv s) (hst : s.st ≠ .running) (hi : i < s.n)
    (hw : Memory.readWord s.buf i = some w) (hk : k < 4) : busByte s (s.par.bufBase + 4 * i + k) = some (lane w k) := by
  have hn := hinv.count
  have hindex : (s.par.bufBase + 4 * i + k - s.par.bufBase) / 4 = i := by omega
  have hlane : (s.par.bufBase + 4 * i + k - s.par.bufBase) % 4 = k := by omega
  rw [busByte, if_pos (by omega), hindex, hlane, rdData_of_record hst hi hn hw]

/-- The format bit is the highest bit of the last lane (R80). -/
theorem getLsbD_lane_three (w : Word) : (lane w 3).getLsbD 7 = recFmt w := by
  simp [lane, recFmt]

theorem toNat_eq_lanes (w : Word) :
    w.toNat = (lane w 0).toNat + (lane w 1).toNat * 2 ^ 8 + (lane w 2).toNat * 2 ^ 16 + (lane w 3).toNat * 2 ^ 24 := by
  have h := Laws.numberOf_lanes w
  simp only [Laws.numberOf] at h
  omega

theorem decode_lanes (w : Word) : decode [lane w 0, lane w 1, lane w 2, lane w 3] = .ok (decodeRecord w) := by
  rw [decode, ofLanes_lane]

/-- Settles O35: the four bytes are the lanes of the record, which make up the word and its decoding. -/
theorem busViewIsLittleEndian : Obligations.BusViewIsLittleEndian := by
  intro s i w hinv hst hi hw
  have hbus (k : Nat) (hk : k < 4) : busByte s (s.par.bufBase + 4 * i + k) = some (lane w k) :=
    busByte_of_record hinv (by simp [hst]) hi hw hk
  exact ⟨lane w 0, lane w 1, lane w 2, lane w 3, hbus 0 (by decide), hbus 1 (by decide), hbus 2 (by decide),
    hbus 3 (by decide), rfl, getLsbD_lane_three w, toNat_eq_lanes w, decode_lanes w⟩

end Sys2Proof.Machine

/-! PROOFS. The encodings of the opcode table: selectors and record words are decoded and encoded without loss
(30_encoding.md rules R80 to R92; 44_inspect.md rule R190), and SEQ stands for its polls (R94). -/

namespace Sys2Proof.Machine

/-! ### Selectors -/

/-- A row's pattern is decoded as that row, whatever the bits it ignores are (R90). -/
theorem decodeSelector_of_encodeSelector {i : Instr} {sel : Byte} (h : encodeSelector i = some sel) :
    decodeSelector sel = i := by
  cases i with
  | recShort => cases h
  | recLong => cases h
  | read => cases h
  | start stHigh =>
    cases h
    rw [decodeSelector_packSelector]
    cases stHigh <;> rfl
  | reset | idleHold | termHold | runFull | runTmoMerge | runTmoAppend | runChange | runWait | reservedSt11 =>
    cases h
    exact decodeSelector_packSelector _ _ _ _ _ _ _

/-- The four values of the state bits, in the encoding of R21 and R91. -/
theorem stBits_cases (st : BitVec 2) : st = 0b00 ∨ st = 0b01 ∨ st = 0b10 ∨ st = 0b11 := by
  revert st
  decide

/-- The row picked for a selector keeps the selector's other bits, so the selector can be written back (R90, log 20). -/
theorem encodeSelector_decodeSelector (sel : Byte) : encodeSelector (decodeSelector sel) = some sel := by
  rw [← packSelector_fields sel, decodeSelector_packSelector]
  generalize selStart sel = start, selTmo sel = tmo, selChg sel = chg, selMrg sel = mrg, selFull sel = full
  cases selRst sel with
  | true => rfl
  | false =>
    obtain hst | hst | hst | hst := stBits_cases (selSt sel) <;> rw [hst]
    · cases start <;> rfl
    · cases full with
      | true => rfl
      | false =>
        cases tmo with
        | true => cases mrg <;> rfl
        | false => cases chg <;> rfl
    · cases start <;> rfl
    · rfl

/-- A row of the operation map covers exactly the selectors that are decoded as its operation (R90). -/
theorem covers_iff_operation (sel : Byte) : ∀ r ∈ selectorRows,
    (r.covers sel = true ↔ (decodeSelector sel).operation = some r.operation) := by
  revert sel
  decide

/-- Every operation has one row in the operation map (R90). -/
theorem exists_row_of_operation (op : Operation) :
    ∃ row, selectorRows.filter (fun r => decide (some op = some r.operation)) = [row] ∧ row.operation = op := by
  cases op <;> exact ⟨_, rfl, rfl⟩

/-- Every selector is a step of some kind (R16, R90). -/
theorem exists_operation_of_selector (sel : Byte) : ∃ op, (decodeSelector sel).operation = some op := by
  have h := encodeSelector_decodeSelector sel
  cases hi : decodeSelector sel with
  | recShort => rw [hi] at h; cases h
  | recLong => rw [hi] at h; cases h
  | read => rw [hi] at h; cases h
  | reset | start | idleHold | termHold | runFull | runTmoMerge | runTmoAppend | runChange | runWait | reservedSt11 =>
    exact ⟨_, rfl⟩

/-! ### Record words -/

theorem decodeRecord_packRecord (fmt : Bool) (cnt : Count) (smp : Byte) :
    decodeRecord (packRecord fmt cnt smp) = if fmt then .recLong cnt smp else .recShort cnt smp := by
  simp [decodeRecord]

theorem decodeRecord_of_encodeRecord {i : Instr} {w : Word} (h : encodeRecord i = some w) : decodeRecord w = i := by
  cases i with
  | recShort | recLong => cases h; exact decodeRecord_packRecord _ _ _
  | reset | start | idleHold | termHold | runFull | runTmoMerge | runTmoAppend | runChange | runWait | reservedSt11
  | read => cases h

/-- A record word is the record of the fields it was decoded to (R80, R84). -/
theorem encodeRecord_decodeRecord (w : Word) : encodeRecord (decodeRecord w) = some w := by
  rw [← packRecord_fields w, decodeRecord_packRecord]
  cases recFmt w <;> rfl

theorem toNat_append_eq_add {m k : Nat} (high : BitVec m) (low : BitVec k) :
    (high ++ low).toNat = high.toNat * 2 ^ k + low.toNat := by
  rw [BitVec.toNat_append, ← Nat.shiftLeft_add_eq_or_of_lt low.isLt, Nat.shiftLeft_eq]

/-- The fields of a record word, as numbers (R80). -/
theorem toNat_packRecord (fmt : Bool) (cnt : Count) (smp : Byte) :
    (packRecord fmt cnt smp).toNat = fmt.toNat * 2 ^ 31 + cnt.toNat * 2 ^ 8 + smp.toNat := by
  rw [packRecord, toNat_append_eq_add, toNat_append_eq_add, BitVec.toNat_ofBool]
  omega

theorem toNat_recCnt (w : Word) : (recCnt w).toNat = w.toNat / 2 ^ 8 % 2 ^ 23 := by
  rw [recCnt, BitVec.extractLsb'_toNat, Nat.shiftRight_eq_div_pow]

/-- A count that is not saturated takes one more without a carry into the format bit (R134). -/
theorem bumpCount_eq_add {w : Word} (h : (recCnt w).toNat ≠ CMAX) : bumpCount w = w + 0x100 := by
  apply BitVec.eq_of_toNat_eq
  have hw : w.toNat = (recFmt w).toNat * 2 ^ 31 + (recCnt w).toNat * 2 ^ 8 + (recSmp w).toNat := by
    rw [← toNat_packRecord, packRecord_fields]
  have hb : (bumpCount w).toNat = w.toNat + 0x100 := by
    rw [bumpCount, toNat_packRecord, count_add_one_toNat h, hw]
    omega
  have hlt : w.toNat + 0x100 < 2 ^ 32 := hb ▸ (bumpCount w).isLt
  exact hb.trans (Nat.mod_eq_of_lt hlt).symm

/-! ### Byte strings -/

theorem toNat_ofLanes (b0 b1 b2 b3 : Byte) :
    (ofLanes b0 b1 b2 b3).toNat = b0.toNat + b1.toNat * 2 ^ 8 + b2.toNat * 2 ^ 16 + b3.toNat * 2 ^ 24 := by
  rw [ofLanes, toNat_append_eq_add, toNat_append_eq_add, toNat_append_eq_add]
  omega

/-- The lanes of a word put together from four bytes are those bytes: a number has one set of base-256 digits (R64). -/
theorem lanes_ofLanes (b0 b1 b2 b3 : Byte) :
    [lane (ofLanes b0 b1 b2 b3) 0, lane (ofLanes b0 b1 b2 b3) 1, lane (ofLanes b0 b1 b2 b3) 2,
      lane (ofLanes b0 b1 b2 b3) 3] = [b0, b1, b2, b3] := by
  have hdigits := (toNat_ofLanes b0 b1 b2 b3).symm.trans (toNat_eq_lanes _)
  simp only [List.cons.injEq, BitVec.toNat_eq, and_true]
  omega

theorem encode_of_encodeSelector {i : Instr} {sel : Byte} (h : encodeSelector i = some sel) : encode i = [sel] := by
  rw [encode, h]

/-- A record word's instruction has no selector, so its encoding is the word's four lanes (R64, R80). -/
theorem encode_of_encodeRecord {i : Instr} {w : Word} (h : encodeRecord i = some w) :
    encode i = [lane w 0, lane w 1, lane w 2, lane w 3] := by
  have hsel : encodeSelector i = none := by
    cases i with
    | recShort | recLong => rfl
    | reset | start | idleHold | termHold | runFull | runTmoMerge | runTmoAppend | runChange | runWait | reservedSt11
    | read => cases h
  rw [encode, hsel, h]

/-- The three formats: a selector, a record word, or READ, which has no bits (R89, R80, R190). -/
theorem encoding_cases (i : Instr) :
    (∃ sel, encodeSelector i = some sel) ∨ (∃ w, encodeRecord i = some w) ∨ i = .read := by
  cases i with
  | recShort | recLong => exact .inr (.inl ⟨_, rfl⟩)
  | read => exact .inr (.inr rfl)
  | reset | start | idleHold | termHold | runFull | runTmoMerge | runTmoAppend | runChange | runWait | reservedSt11 =>
    exact .inl ⟨_, rfl⟩

/-- Settles O1, format by format. -/
theorem decodeOfEncodeIsIdentity : Obligations.DecodeOfEncodeIsIdentity := by
  intro i
  obtain ⟨sel, h⟩ | ⟨w, h⟩ | rfl := encoding_cases i
  · rw [encode_of_encodeSelector h, decode, decodeSelector_of_encodeSelector h]
  · rw [encode_of_encodeRecord h, decode_lanes, decodeRecord_of_encodeRecord h]
  · rfl

/-- Settles O2, by the three lengths that the decoder accepts. -/
theorem encodeOfDecodeIsIdentity : Obligations.EncodeOfDecodeIsIdentity := by
  intro bytes i h
  match bytes, h with
  | [], h => cases h; rfl
  | [sel], h => cases h; exact encode_of_encodeSelector (encodeSelector_decodeSelector sel)
  | [b0, b1, b2, b3], h =>
    cases h
    rw [encode_of_encodeRecord (encodeRecord_decodeRecord _), lanes_ofLanes]
  | [_, _], h => cases h
  | [_, _, _], h => cases h
  | _ :: _ :: _ :: _ :: _ :: _, h => cases h

/-- Settles O6: the encoder's words are packed records, whose fields stand at `2^31`, `2^8` and 1. -/
theorem encoderWordForms : Obligations.EncoderWordForms := by
  refine ⟨fun t smp ht => ?_, fun u smp => ?_⟩
  · rw [encShort, toNat_packRecord, BitVec.extractLsb'_toNat, Nat.shiftRight_zero, Nat.mod_eq_of_lt ht]
    simp
  · rw [encLong, toNat_packRecord]
    simp

/-- Settles O7: a mergeable word's count is not saturated, so one more does not wrap. -/
theorem mergeRaisesOnlyTheCount : Obligations.MergeRaisesOnlyTheCount := by
  intro w lvl h
  obtain ⟨hfmt, hsmp, hcnt⟩ := (mergeable_iff w lvl).1 h
  refine ⟨bumpCount_eq_add hcnt, ?_, ?_, ?_⟩
  · rw [recFmt_bumpCount, hfmt]
  · rw [recSmp_bumpCount, hsmp]
  · rw [recCnt_bumpCount, count_add_one_toNat hcnt]

/-- Settles O37, by induction on the number of polls: the first poll takes `d` off the reading of all the others. -/
theorem seqExpandsToPolls : Obligations.SeqExpandsToPolls := by
  intro k
  induction k with
  | zero => intros; rfl
  | succ k ih =>
    intro tick0 d level
    have hshift (j : Nat) : tick0 - d - BitVec.ofNat 24 (j * d.toNat) = tick0 - BitVec.ofNat 24 ((j + 1) * d.toNat) := by
      rw [Nat.add_one_mul, BitVec.ofNat_add, BitVec.ofNat_toNat, BitVec.setWidth_eq, add_comm, sub_sub]
    rw [stimSeq, ih, List.range_succ_eq_map, List.map_cons, List.map_map]
    simp [Function.comp_def, hshift]

/-- Settles O3: each word is concrete. -/
theorem specWordsDecode : Obligations.SpecWordsDecode :=
  ⟨rfl, rfl, rfl, rfl, rfl, rfl, rfl, rfl, rfl, rfl, rfl, rfl, rfl⟩

/-- Settles O4: the rows that cover a selector are the rows of its operation, and there is one. -/
theorem selectorRowsPartition : Obligations.SelectorRowsPartition := by
  intro sel
  obtain ⟨op, hop⟩ := exists_operation_of_selector sel
  obtain ⟨row, hrow, rfl⟩ := exists_row_of_operation op
  refine ⟨row, hrow ▸ List.filter_congr fun r hr => ?_, hop⟩
  rw [Bool.eq_iff_iff, covers_iff_operation sel r hr, hop, decide_eq_true_iff]

/-- Settles O5, by the format bit; the bound is that of every record's duration. -/
theorem recordDecodesByFormatBit : Obligations.RecordDecodesByFormatBit := by
  intro w
  rw [← toNat_recCnt]
  refine ⟨fun (hfmt : recFmt w = false) => ?_, fun (hfmt : recFmt w = true) => ?_, recordDuration_le w⟩
  · rw [decodeRecord, recordDuration, hfmt]
    exact ⟨rfl, rfl⟩
  · rw [decodeRecord, recordDuration, hfmt]
    exact ⟨rfl, rfl⟩

end Sys2Proof.Machine

/-! PROOFS. The reserved session state (30_encoding.md rule R91) and the reader of a finished buffer (R84 to R86,
44_inspect.md rule R193). -/

namespace Sys2Proof.Machine

/-! ### The reserved session state -/

/-- An edge with the forced encoding `st = 11` is a RESET under `rst = 1` and has no meaning otherwise (R90, R91; log 1).
-/
theorem step_clockForced {s : State} {p : Ports} {rest : List HostEvent} (h : s.env.pending = .clockForced p :: rest) :
    step s = if p.rst then .next (resetRegisters (driveEdge s p rest)) else .refused .reservedSessionState := by
  simp only [step, fetch, h, fetchForcedEdge, forcedSelector, decodeSelector_packSelector, driveEdge_env_ports]
  cases p.rst <;> rfl

theorem priorityOperation_ne_reserved (s : State) : priorityOperation s ≠ .reserved := by
  unfold priorityOperation
  split_ifs <;> simp

/-- Settles O15: the order of R150, which the selector follows, never ends in the reserved row. -/
theorem reservedSelectorIsRefused : Obligations.ReservedSelectorIsRefused := by
  refine ⟨fun _ _ _ _ _ _ => rfl, fun s p rest hp => ⟨fun hrst => ?_, fun hrst => ?_⟩, fun s hsel => ?_⟩
  · rw [step_clockForced hp, hrst]; rfl
  · rw [step_clockForced hp, hrst]; rfl
  · exact priorityOperation_ne_reserved s ((selects_iff_priorityOperation s _).1 hsel).symm

/-! ### One record word -/

theorem countValid_iff (cnt : Count) : countValid cnt = true ↔ cnt ≠ 0 := bne_iff_ne

theorem execRecShort_of_count {cnt : Count} (h : cnt ≠ 0) (smp : Byte) (s : State) :
    execRecShort cnt smp s = .next (enterSpan s cnt.toNat smp true) := by
  rw [execRecShort, if_pos ((countValid_iff cnt).2 h)]

theorem execRecLong_of_count {cnt : Count} (h : cnt ≠ 0) (smp : Byte) (s : State) :
    execRecLong cnt smp s = .next (enterSpan s (cnt.toNat * UNIT) smp false) := by
  rw [execRecLong, if_pos ((countValid_iff cnt).2 h)]

/-- Settles O33, by the validity of the count. -/
theorem recordWordEntersItsInterval : Obligations.RecordWordEntersItsInterval := by
  refine fun cnt smp s => ⟨fun h => ?_, ?_⟩
  · exact ⟨execRecShort_of_count h smp s, execRecLong_of_count h smp s⟩
  · rintro rfl
    exact ⟨rfl, rfl⟩

/-- The reader's meaning of a word is one interval, of either format (R84, R86). -/
theorem exec_decodeRecord {w : Word} (h : recCnt w ≠ 0) (s : State) :
    exec (decodeRecord w) s = .next (enterSpan s (recordDuration w) (recSmp w) (!recFmt w)) := by
  unfold decodeRecord recordDuration
  cases recFmt w with
  | true => exact execRecLong_of_count h _ s
  | false => exact execRecShort_of_count h _ s

/-! ### The reader's program -/

theorem step_rewind {s : State} {rest : List HostEvent} (h : s.env.pending = .rewind :: rest) :
    step s = .next (rewindReader s rest) := by
  simp only [step, fetch, h]

theorem step_decodeRecord {s : State} {rest : List HostEvent} (h : s.env.pending = .decodeRecord :: rest)
    (hcnt : recCnt s.env.rdWord ≠ 0) :
    step s = .next (enterSpan (dropEvent s rest) (recordDuration s.env.rdWord) (recSmp s.env.rdWord)
      (!recFmt s.env.rdWord)) := by
  simp only [step, fetch, h, exec_decodeRecord hcnt]

/-- The `AW` wires carry every index of the buffer (R9, R33). -/
theorem portAddr_of_lt {p : Params} (hp : p.Valid) {i : Nat} (hi : i < p.nmax) : portAddr p i = i := by
  obtain ⟨-, hnmax, -, -⟩ := hp
  refine Nat.mod_eq_of_lt ?_
  calc i < p.nmax := hi
    _ ≤ 2 ^ ceilLog2 p.nmax := le_two_pow_ceilLog2 (by omega)
    _ ≤ 2 ^ addrWidth p := Nat.pow_le_pow_right (by decide) (le_max_right _ _)

/-- A buffer that the port shows in full: no session runs, and the records lie within the buffer (R8, R41, R190). -/
structure Readable (s : State) : Prop where
  params : s.par.Valid
  count : s.n ≤ s.par.nmax
  stopped : s.st ≠ .running

/-- The state after the reader has read and decoded the record at `i`, the events `rest` still to come (R86). -/
def afterRecord (s : State) (i : Nat) (rest : List HostEvent) : State :=
  enterSpan { s with env := { s.env with rdAddr := i, pending := rest, rdWord := bufRead s i } }
    (recordDuration (bufRead s i)) (recSmp (bufRead s i)) (!recFmt (bufRead s i))

/-- A read and a decoding of one record, two steps (R86, R193). -/
theorem runSteps_read_decode {s : State} {i : Nat} {rest : List HostEvent} (h : Readable s) (hi : i < s.n)
    (hcnt : recCnt (bufRead s i) ≠ 0) (hp : s.env.pending = .read i :: .decodeRecord :: rest) :
    runSteps 2 s = .next (afterRecord s i rest) := by
  have hlt : i < s.par.nmax := Nat.lt_of_lt_of_le hi h.count
  have haddr : portAddr s.par i = i := portAddr_of_lt h.params hlt
  have hdata : rdData s i = bufRead s i := by rw [rdData, if_neg h.stopped, if_neg (by omega), if_pos hi]
  have hread := step_read hp
  rw [haddr, hdata] at hread
  rw [runSteps_succ 1 hread]
  exact runSteps_succ 0 (step_decodeRecord rfl hcnt)

/-- The records at `i` to `i + count - 1`, which the reader still has before it. -/
def recordsFrom (s : State) (i count : Nat) : List Word := (List.range' i count).map (bufRead s)

theorem recordsFrom_succ (s : State) (i count : Nat) :
    recordsFrom s i (count + 1) = bufRead s i :: recordsFrom s (i + 1) count := by
  rw [recordsFrom, List.range'_succ, List.map_cons, recordsFrom]

theorem records_eq_recordsFrom (s : State) : records s = recordsFrom s 0 s.n := by
  rw [records, List.range_eq_range', recordsFrom]

/-- The reader's program turns the records before it into their intervals, from the reader's time on, and changes the
environment alone (R86, R193). -/
theorem reader_enters_spans (count : Nat) : ∀ {s : State} {i : Nat}, Readable s → i + count ≤ s.n →
    (∀ w ∈ recordsFrom s i count, recCnt w ≠ 0) → s.env.pending = stimDecodeFrom i count →
    ∃ t, runSteps (2 * count) s = .next t ∧
      t.env.history = s.env.history ++ spansFrom s.env.time (recordsFrom s i count) ∧
      t.env.time = s.env.time + ((recordsFrom s i count).map recordDuration).sum ∧ t = { s with env := t.env } := by
  induction count with
  | zero =>
    intro s i _ _ _ _
    exact ⟨s, rfl, (List.append_nil _).symm, rfl, rfl⟩
  | succ count ih =>
    intro s i h hi hcnt hp
    rw [recordsFrom_succ, List.forall_mem_cons] at hcnt
    obtain ⟨hfirst, hrest⟩ := hcnt
    have hi' : i + 1 + count ≤ s.n := by omega
    obtain ⟨t, ht, hhistory, htime, hframe⟩ :=
      ih (s := afterRecord s i (stimDecodeFrom (i + 1) count)) ⟨h.params, h.count, h.stopped⟩ hi' hrest rfl
    refine ⟨t, ?_, ?_, ?_, hframe⟩
    · rw [show 2 * (count + 1) = 2 + 2 * count by omega,
        runSteps_add 2 _ (runSteps_read_decode h (by omega) hfirst hp), ht]
    · rw [hhistory, recordsFrom_succ]
      exact List.append_assoc _ _ _
    · rw [htime, recordsFrom_succ, List.map_cons, List.sum_cons, ← Nat.add_assoc]
      rfl

/-- Settles O34: the rewind sets the reader to tick 0 with an empty history, and the program reads all `n` records. -/
theorem readerRebuildsTheIntervals : Obligations.ReaderRebuildsTheIntervals := by
  intro s hinv hst hcnt hp
  have hreadable : Readable (rewindReader s (stimDecodeFrom 0 s.n)) := ⟨hinv.params, hinv.count, by simp [hst]⟩
  rw [records_eq_recordsFrom] at hcnt
  obtain ⟨t, ht, hhistory, htime, hframe⟩ := reader_enters_spans s.n hreadable (Nat.zero_add _).le hcnt rfl
  refine ⟨t, by rw [runSteps_succ _ (step_rewind hp), ht], ?_, ?_, hframe⟩
  · rw [hhistory, records_eq_recordsFrom]
    rfl
  · rw [htime, totalDuration, records_eq_recordsFrom]
    exact Nat.zero_add _

end Sys2Proof.Machine

/-! PROOFS. The Timer Reader (40_timer.md rules R100 to R107): the timeout test and its source form, ADVANCE, the interval
that a short record holds, and the independence of a run from the readings' common offset. -/

namespace Sys2Proof.Machine

/-! ### The timeout test -/

/-- The source's readings stand 8 bits up in 32-bit words, so their difference is the elapsed ticks 8 bits up (R101). -/
theorem toNat_sourceDifference (bnd tickIn : Tick) :
    (((bnd.setWidth 32) <<< 8) - ((tickIn.setWidth 32) <<< 8)).toNat = (elapsedBetween bnd tickIn).toNat * 2 ^ 8 := by
  simp only [elapsedBetween, BitVec.toNat_sub, BitVec.toNat_shiftLeft, BitVec.toNat_setWidth, Nat.shiftLeft_eq]
  omega

theorem tmoOf_eq_true_iff (bnd tickIn : Tick) : tmoOf bnd tickIn = true ↔ UNIT ≤ (elapsedBetween bnd tickIn).toNat :=
  decide_eq_true_iff

theorem tmoOf_eq_tmoSourceForm (bnd tickIn : Tick) : tmoOf bnd tickIn = tmoSourceForm bnd tickIn := by
  rw [tmoOf, tmoSourceForm, toNat_sourceDifference, decide_eq_decide, UNIT]
  omega

/-- A unit is half the range of the counter, so the test reads the highest bit (R101). -/
theorem tmoOf_eq_getLsbD (bnd tickIn : Tick) : tmoOf bnd tickIn = (elapsedBetween bnd tickIn).getLsbD 23 :=
  (BitVec.msb_eq_decide (elapsedBetween bnd tickIn)).symm

theorem selTmo_packSelector (rst : Bool) (st : BitVec 2) (start tmo chg mrg full : Bool) :
    selTmo (packSelector rst st start tmo chg mrg full) = tmo := by
  simp only [selTmo, packSelector, BitVec.getLsbD_append, BitVec.getLsbD_ofBool]
  rfl

/-- Settles O8: the shift multiplies the elapsed ticks by `2^8`, and a unit is the weight of their highest bit. -/
theorem timeoutTestFormsAgree : Obligations.TimeoutTestFormsAgree :=
  ⟨fun bnd tickIn =>
    ⟨tmoOf_eq_true_iff bnd tickIn, tmoOf_eq_tmoSourceForm bnd tickIn, tmoOf_eq_getLsbD bnd tickIn⟩,
   fun _ => selTmo_packSelector _ _ _ _ _ _ _⟩

/-! ### ADVANCE -/

/-- Flipping the highest of 24 bits adds or takes its weight, whichever stays in range. -/
theorem xor_highBit {x : Nat} (h : x < 2 ^ 24) : x ^^^ 2 ^ 23 = if x < 2 ^ 23 then x + 2 ^ 23 else x - 2 ^ 23 := by
  have hlow : (x ^^^ 2 ^ 23) % 2 ^ 23 = x % 2 ^ 23 := Nat.xor_mod_two_pow.trans (Nat.xor_zero _)
  have hhigh : (x ^^^ 2 ^ 23) / 2 ^ 23 = x / 2 ^ 23 ^^^ 1 := Nat.xor_div_two_pow
  split
  · next hlt =>
    rw [Nat.div_eq_of_lt hlt, Nat.zero_xor] at hhigh
    omega
  · next hge =>
    rw [show x / 2 ^ 23 = 1 by omega, Nat.xor_self] at hhigh
    omega

/-- `UNIT` is its own negative modulo `2^24`, so ADVANCE flips bit 23 (R102). -/
theorem advanced_eq_xor (bnd : Tick) : advanced bnd = bnd ^^^ 0x800000 := by
  apply BitVec.eq_of_toNat_eq
  rw [BitVec.toNat_xor, show (0x800000 : Tick).toNat = 2 ^ 23 from rfl, xor_highBit bnd.isLt, advanced, BitVec.toNat_sub,
    show (BitVec.ofNat 24 UNIT).toNat = 2 ^ 23 from rfl]
  split <;> omega

/-- ADVANCE takes exactly one unit off the elapsed ticks, where a unit has elapsed (R107). -/
theorem elapsedBetween_advanced {bnd tickIn : Tick} (h : UNIT ≤ (elapsedBetween bnd tickIn).toNat) :
    (elapsedBetween (advanced bnd) tickIn).toNat + UNIT = (elapsedBetween bnd tickIn).toNat := by
  have hswap : elapsedBetween (advanced bnd) tickIn = elapsedBetween bnd tickIn - BitVec.ofNat 24 UNIT :=
    sub_right_comm _ _ _
  rw [hswap, BitVec.toNat_sub_of_le h]
  exact Nat.sub_add_cancel h

/-- Settles O9. -/
theorem advanceConsumesOneUnit : Obligations.AdvanceConsumesOneUnit := fun bnd tickIn =>
  ⟨advanced_eq_xor bnd, fun h => elapsedBetween_advanced ((tmoOf_eq_true_iff bnd tickIn).1 h)⟩

/-! ### The interval of a change -/

/-- RUN_CHANGE comes after the timeouts in the order of R150. -/
theorem tmo_eq_false_of_selects_runChange {s : State} (h : selects s .runChange) : tmo s = false := by
  rw [selects_iff_priorityOperation, priorityOperation] at h
  cases htmo : tmo s with
  | false => rfl
  | true =>
    simp only [htmo] at h
    split_ifs at h

/-- Settles O10: a timeout would take precedence, so less than a unit has elapsed. -/
theorem changeCountIsNeverTruncated : Obligations.ChangeCountIsNeverTruncated := by
  intro s hsel
  have hlt : (elapsed s).toNat < UNIT := (tmo_eq_false_iff s).1 (tmo_eq_false_of_selects_runChange hsel)
  exact ⟨hlt, recCnt_encShort_toNat s.lvl hlt⟩

/-! ### Offset readings -/

/-- The states that an edge can leave are those that its operation answers. -/
theorem EdgeTo.exec_eq {s t : State} (he : EdgeTo s t) : exec (decodeSelector (selector s)) s = .next t := by
  rw [edge_eq]
  cases he with
  | reset hrst => simp [hrst]
  | start hrst hst hstart => simp [hrst, hst, hstart]
  | hold hrst hst hstart => simp [hrst, hst, hstart]
  | full hrst hst hn => simp [hrst, hst, (full_eq_true_iff s).2 hn]
  | merge hrst hst hn htmo hmrg =>
    simp [hrst, hst, (full_eq_false_iff s).2 hn.ne, htmo, hmrg, execRunTmoMerge_of_room (pos_of_mrg hmrg) hn]
  | append hrst hst hn htmo hmrg =>
    simp [hrst, hst, (full_eq_false_iff s).2 hn.ne, htmo, hmrg, execRunTmoAppend_of_room hn]
  | change hrst hst hn htmo hchg =>
    simp [hrst, hst, (full_eq_false_iff s).2 hn.ne, htmo, hchg, execRunChange_of_room hn]
  | wait hrst hst hn htmo hchg => simp [hrst, hst, (full_eq_false_iff s).2 hn, htmo, hchg]

/-- The elapsed ticks are a difference of readings, so a common offset cancels (R105). -/
theorem elapsedBetween_add_right (bnd tickIn c : Tick) : elapsedBetween (bnd + c) (tickIn + c) = elapsedBetween bnd tickIn :=
  add_sub_add_right_eq_sub bnd tickIn c

theorem advanced_add (bnd c : Tick) : advanced (bnd + c) = advanced bnd + c := add_sub_right_comm _ _ _

section
variable (c : Tick) (s : State)

@[simp] theorem elapsed_shiftReadings : elapsed (shiftReadings c s) = elapsed s := elapsedBetween_add_right _ _ _

@[simp] theorem tmo_shiftReadings : tmo (shiftReadings c s) = tmo s :=
  congrArg (fun e : Tick => decide (UNIT ≤ e.toNat)) (elapsed_shiftReadings c s)

theorem terminationTest_shiftReadings (n' : Nat) (bud' : Budget) :
    terminationTest (shiftReadings c s) n' bud' = shiftReadings c (terminationTest s n' bud') := by
  unfold terminationTest
  rw [apply_ite (shiftReadings c)]
  rfl

theorem mergedInto_shiftReadings : mergedInto (shiftReadings c s) = shiftReadings c (mergedInto s) := by
  rw [mergedInto, mergedInto, ← terminationTest_shiftReadings, shiftReadings, shiftReadings]
  simp only [advanced_add]
  rfl

theorem timedOut_shiftReadings : timedOut (shiftReadings c s) = shiftReadings c (timedOut s) := by
  rw [timedOut, timedOut, ← terminationTest_shiftReadings, shiftReadings, shiftReadings]
  simp only [advanced_add]

theorem changed_shiftReadings : changed (shiftReadings c s) = shiftReadings c (changed s) := by
  rw [changed, changed, elapsed_shiftReadings, ← terminationTest_shiftReadings]
  rfl
end

/-- The simulation: an edge that does not reset leaves, from the offset state, the offset of the state it leaves; its
conditions are differences of readings or look at no reading (R105). RESET is left out, since it fixes the boundary. -/
theorem EdgeTo.shiftReadings {s t : State} (he : EdgeTo s t) (hrst : s.env.ports.rst = false) (c : Tick) :
    EdgeTo (shiftReadings c s) (shiftReadings c t) := by
  cases he with
  | reset hrst' => rw [hrst] at hrst'; cases hrst'
  | start _ hst hstart => exact .start hrst hst hstart
  | hold _ hst hstart => exact .hold hrst hst hstart
  | full _ hst hn =>
    rw [← terminationTest_shiftReadings]
    exact .full hrst hst hn
  | merge _ hst hn htmo hmrg =>
    rw [← mergedInto_shiftReadings]
    exact .merge hrst hst hn (by rwa [tmo_shiftReadings]) hmrg
  | append _ hst hn htmo hmrg =>
    rw [← timedOut_shiftReadings]
    exact .append hrst hst hn (by rwa [tmo_shiftReadings]) hmrg
  | change _ hst hn htmo hchg =>
    rw [← changed_shiftReadings]
    exact .change hrst hst hn (by rwa [tmo_shiftReadings]) hchg
  | wait _ hst hn htmo hchg => exact .wait hrst hst hn (by rwa [tmo_shiftReadings]) hchg

/-- One scripted edge without reset commutes with the offset. -/
theorem step_shiftReadings {s t : State} {p : Ports} {rest : List HostEvent} (hp : s.env.pending = .clock p :: rest)
    (hrst : p.rst = false) (h : step s = .next t) (c : Tick) :
    step (shiftReadings c s) = .next (shiftReadings c t) := by
  have hp' : (shiftReadings c s).env.pending = .clock (shiftPorts c p) :: rest.map (shiftEvent c) :=
    congrArg (List.map (shiftEvent c)) hp
  rw [step_clock hp']
  exact ((edgeTo_of_step_clock hp h).shiftReadings hrst c).exec_eq

/-- Edges without reset commute with the offset, by induction on their list. -/
theorem runSteps_shiftReadings (c : Tick) (ps : List Ports) : ∀ {s t : State}, (∀ p ∈ ps, p.rst = false) →
    s.env.pending = ps.map .clock → runSteps ps.length s = .next t →
    runSteps ps.length (shiftReadings c s) = .next (shiftReadings c t) := by
  induction ps with
  | nil =>
    intro s t _ _ h
    cases h
    rfl
  | cons p ps ih =>
    intro s t hrst hp h
    rw [List.forall_mem_cons] at hrst
    obtain ⟨hfirst, hrest⟩ := hrst
    obtain ⟨u, hu, h⟩ := step_of_runSteps_succ h
    have hpending : u.env.pending = ps.map .clock :=
      congrArg Environment.pending (edge_frame (step_clock hp ▸ hu)).1
    exact (runSteps_succ ps.length (step_shiftReadings hp hfirst hu c)).trans (ih hrest hpending h)

/-- Settles O49, by the simulation of every edge; what is observed of the last state holds no reading. -/
theorem runsAreOffsetInvariant : Obligations.RunsAreOffsetInvariant := fun c ps _ _ hrst hp h =>
  ⟨runSteps_shiftReadings c ps hrst hp h, rfl⟩

end Sys2Proof.Machine

/-! PROOFS. The Sampler (41_sampler.md rules R124 and R126): a timeout discards its sample, and with the host's spacing the
edge after it is no timeout and commits what is still there. -/

namespace Sys2Proof.Machine

/-- The ticks from a boundary less than a unit before the previous reading add up to this reading with no wrap (R104, R231).
-/
theorem toNat_elapsedBetween_of_spacedBy {bnd previous current : Tick}
    (hlt : (elapsedBetween bnd previous).toNat < UNIT) (hspaced : spacedBy previous current) :
    (elapsedBetween bnd current).toNat = (elapsedBetween bnd previous).toNat + (elapsedBetween previous current).toNat := by
  obtain ⟨-, hhigh⟩ := hspaced
  rw [UNIT] at hlt
  rw [← elapsedBetween_add bnd previous current, BitVec.toNat_add, Nat.mod_eq_of_lt]
  omega

/-- A timeout leaves less than its own spacing, so the next reading is less than two spacings, at most a unit, from the
advanced boundary (R126). -/
theorem elapsedBetween_lt_after_timeout {bnd previous current next : Tick}
    (hlt : (elapsedBetween bnd previous).toNat < UNIT) (hspaced : spacedBy previous current)
    (htmo : UNIT ≤ (elapsedBetween bnd current).toNat) (hspaced' : spacedBy current next) :
    (elapsedBetween (advanced bnd) next).toNat < UNIT := by
  have hsum := toNat_elapsedBetween_of_spacedBy hlt hspaced
  have hleft := elapsedBetween_advanced htmo
  have hleft_lt : (elapsedBetween (advanced bnd) current).toNat < UNIT := elapsedBetween_advanced_lt bnd current htmo
  have hnext := toNat_elapsedBetween_of_spacedBy hleft_lt hspaced'
  obtain ⟨-, hhigh⟩ := hspaced
  obtain ⟨-, hhigh'⟩ := hspaced'
  rw [UNIT] at *
  omega

/-- A timeout that lets the session run on keeps the committed level, advances the boundary and leaves room for a record
(R124, R156, R157). -/
theorem EdgeTo.timeout_frame {s t : State} (he : EdgeTo s t) (hrst : s.env.ports.rst = false) (hst : s.st = .running)
    (hn : s.n < s.par.nmax) (htmo : tmo s = true) (hrun : t.st = .running) :
    t.lvl = s.lvl ∧ t.bnd = advanced s.bnd ∧ t.n < t.par.nmax := by
  cases he with
  | reset hrst' => rw [hrst] at hrst'; cases hrst'
  | start _ hst' => exact absurd hst hst'
  | hold _ hst' => exact absurd hst hst'
  | full _ _ hfull => exact absurd hfull hn.ne
  | merge => exact ⟨mergedInto_lvl s, mergedInto_bnd s, by rwa [mergedInto_n, mergedInto_par]⟩
  | append =>
    refine ⟨timedOut_lvl s, timedOut_bnd s, Nat.lt_of_le_of_ne ?_ (terminationTest_room hrun)⟩
    rw [timedOut_n, timedOut_par]
    exact hn
  | change _ _ _ htmo' => rw [htmo] at htmo'; cases htmo'
  | wait _ _ _ htmo' => rw [htmo] at htmo'; cases htmo'

/-- A level change with no timeout, in a session with room for a record, is a RUN_CHANGE (R150). -/
theorem selects_runChange_of_chg {s : State} (hrst : s.env.ports.rst = false) (hst : s.st = .running)
    (hn : s.n < s.par.nmax) (htmo : tmo s = false) (hchg : chg s = true) : selects s .runChange := by
  rw [selects_iff_priorityOperation]
  simp [priorityOperation, hrst, hst, (full_eq_false_iff s).2 hn.ne, htmo, hchg]

/-- Settles O47: the spacing rules out a second timeout, and the timeout left the level to compare with and the room. -/
theorem timeoutIsFollowedByCommit : Obligations.TimeoutIsFollowedByCommit := by
  intro s t p q rest hst hn helapsed hp hprst hqrst hspaced hspaced' htmo hstep hrun
  have he : EdgeTo (driveEdge s p (.clock q :: rest)) t := edgeTo_of_step_clock hp hstep
  obtain ⟨hlvl, hbnd, hroom⟩ := he.timeout_frame hprst hst hn htmo hrun
  have henv : t.env = (driveEdge s p (.clock q :: rest)).env := (edge_frame he.exec_eq).1
  have hnext : tmo (driveEdge t q rest) = false := by
    rw [tmo_eq_false_iff]
    change (elapsedBetween t.bnd q.tickIn).toNat < UNIT
    rw [hbnd]
    exact elapsedBetween_lt_after_timeout helapsed hspaced ((tmo_eq_true_iff _).1 htmo) hspaced'
  refine ⟨hnext, fun hlevel => ?_⟩
  have hchg : chg (driveEdge t q rest) = true := (chg_eq_true_iff _).2 (hlvl ▸ hlevel)
  refine ⟨selects_runChange_of_chg hqrst hrun hroom hnext hchg, changed (driveEdge t q rest), ?_,
    changed_lvl _, changed_bnd _, changed_n _⟩
  rw [step_clock (congrArg Environment.pending henv)]
  exact (EdgeTo.change (s := driveEdge t q rest) hqrst hrun hroom hnext hchg).exec_eq

end Sys2Proof.Machine

/-! PROOFS. The Trace Encoder (42_encoder.md rules R130 to R138): a full buffer refuses every encoder operation, and a run
of timeouts fills long records one after another. -/

namespace Sys2Proof.Machine

/-! ### A full buffer -/

/-- An append on a full buffer is refused (R135). -/
theorem appendRecord_of_full {s : State} (h : s.n = s.par.nmax) (w : Word) : appendRecord s w = .refused := by
  rw [appendRecord, if_pos ((full_eq_true_iff s).2 h)]

/-- A merge on a full buffer is refused (R135, C1). -/
theorem recordTimeoutMerge_of_full {s : State} (h : s.n = s.par.nmax) : recordTimeoutMerge s = .refused := by
  rw [recordTimeoutMerge, if_pos ((full_eq_true_iff s).2 h)]

/-- The instructions that commit a record run the three commit meanings (R155 to R157). -/
theorem exec_of_commit {i : Instr}
    (h : i.operation = some .runChange ∨ i.operation = some .runTmoAppend ∨ i.operation = some .runTmoMerge) (s : State) :
    exec i s = execRunChange s ∨ exec i s = execRunTmoAppend s ∨ exec i s = execRunTmoMerge s := by
  cases i with
  | runChange => exact .inl rfl
  | runTmoAppend => exact .inr (.inl rfl)
  | runTmoMerge => exact .inr (.inr rfl)
  | _ => simp [Instr.operation] at h

/-- A commit on a full buffer only makes TERMINATION_TEST on the count and budget as they stand (R135; log 9). -/
theorem exec_commit_of_full {i : Instr} {s : State} (h : s.n = s.par.nmax)
    (hi : i.operation = some .runChange ∨ i.operation = some .runTmoAppend ∨ i.operation = some .runTmoMerge) :
    exec i s = .next (terminationTest s s.n s.bud) := by
  rcases exec_of_commit hi s with hx | hx | hx
  · rw [hx, execRunChange, recordChange, appendRecord_of_full h, finishCommit_refused]
  · rw [hx, execRunTmoAppend, recordTimeoutAppend, appendRecord_of_full h, finishCommit_refused]
  · rw [hx, execRunTmoMerge, recordTimeoutMerge_of_full h, finishCommit_refused]

/-- Settles O25: the capacity test comes before every write, and `full` before every commit in the order of R150. -/
theorem encoderRefusesWhenFull : Obligations.EncoderRefusesWhenFull := by
  intro s hn
  refine ⟨fun t => appendRecord_of_full hn _, appendRecord_of_full hn _, recordTimeoutMerge_of_full hn, fun i hi => ?_,
    fun hrst hst => ?_⟩
  · exact ⟨_, exec_commit_of_full hn hi, terminationTest_buf _ _ _, terminationTest_n _ _ _⟩
  · rw [selects_iff_priorityOperation]
    simp [priorityOperation, hrst, hst, (full_eq_true_iff s).2 hn]

/-! ### The long records of a run of timeouts -/

/-- How many long records `j` timeouts in a row fill or begin: `j / CMAX`, rounded up (R138). -/
def longRecords (j : Nat) : Nat := (j + (CMAX - 1)) / CMAX

/-- The long record number `i` of the level `lvl` after `j` timeouts in a row: the units that the records before it leave
over, at most `CMAX` of them (R138). -/
def longRecord (lvl : Byte) (j i : Nat) : Word := encLong (BitVec.ofNat 23 (min CMAX (j - CMAX * i))) lvl

/-- One more timeout goes into the record number `j / CMAX`. -/
theorem longRecords_succ (j : Nat) : longRecords (j + 1) = j / CMAX + 1 := by
  simp only [longRecords, CMAX]
  omega

/-- `j` timeouts have begun the record number `j / CMAX` already, unless they just saturated the one before it. -/
theorem longRecords_eq (j : Nat) : longRecords j = if j % CMAX = 0 then j / CMAX else j / CMAX + 1 := by
  simp only [longRecords, CMAX]
  split <;> omega

theorem longRecord_of_saturated (lvl : Byte) {j i : Nat} (h : i < j / CMAX) :
    longRecord lvl j i = encLong (BitVec.ofNat 23 CMAX) lvl := by
  have hmin : min CMAX (j - CMAX * i) = CMAX := by
    simp only [CMAX] at *
    omega
  rw [longRecord, hmin]

theorem longRecord_last (lvl : Byte) (j : Nat) :
    longRecord lvl (j + 1) (j / CMAX) = encLong (BitVec.ofNat 23 (j % CMAX + 1)) lvl := by
  have hmin : min CMAX (j + 1 - CMAX * (j / CMAX)) = j % CMAX + 1 := by
    simp only [CMAX]
    omega
  rw [longRecord, hmin]

/-- The record that the next timeout goes into holds the units since the last saturated one. -/
theorem longRecord_div (lvl : Byte) (j : Nat) :
    longRecord lvl j (j / CMAX) = encLong (BitVec.ofNat 23 (j % CMAX)) lvl := by
  have hmin : min CMAX (j - CMAX * (j / CMAX)) = j % CMAX := by
    simp only [CMAX]
    omega
  rw [longRecord, hmin]

theorem bumpCount_encLong (u : Count) (smp : Byte) : bumpCount (encLong u smp) = encLong (u + 1) smp := by
  simp [bumpCount, encLong]

/-- Words are read byte by byte, so equal bytes make equal words (R64). -/
theorem Memory.readWord_congr {m m' : Memory} {i : Nat} (h : ∀ a, a / 4 = i → Memory.read m' a = Memory.read m a) :
    Memory.readWord m' i = Memory.readWord m i := by
  have h0 := h (4 * i) (by omega)
  have h1 := h (4 * i + 1) (by omega)
  have h2 := h (4 * i + 2) (by omega)
  have h3 := h (4 * i + 3) (by omega)
  simp only [Memory.readWord, h0, h1, h2, h3]

/-- MERGE_TEST looks at the last record only (R132). -/
theorem mrg_eq_mergeable {s : State} {w : Word} (hn : 0 < s.n) (hw : Memory.readWord s.buf (s.n - 1) = some w) :
    mrg s = mergeable w s.lvl := by
  rw [mrg, bufRead_of_readWord hw, decide_eq_true hn, Bool.true_and]

/-! ### Where a commit leaves the session -/

/-- TERMINATION_TEST ends a running session exactly on a full buffer or a negative budget (R158). -/
theorem terminationTest_st_of_running {s : State} (n' : Nat) (bud' : Budget) (h : s.st = .running) :
    (terminationTest s n' bud').st =
      if n' = s.par.nmax ∨ (s.bounded = true ∧ bud'.toInt < 0) then .terminated else .running := by
  rcases terminationTest_cases s n' bud' with ⟨hstop, ht⟩ | ⟨hn, hbud, ht⟩
  · rw [ht, if_pos hstop]
  · rw [ht, if_neg (not_or.2 ⟨hn, hbud⟩), h]

/-- A unit off a budget that is not negative does not wrap (R27, R160). -/
theorem toInt_sub_unitTicks {b : Budget} (h : 0 ≤ b.toInt) : (b - unitTicks).toInt = b.toInt - UNIT := by
  have hunit : unitTicks.toInt = UNIT := by decide
  have hlt := BitVec.toInt_lt (x := b)
  rw [BitVec.toInt_sub, hunit, Int.bmod_eq_of_le] <;> rw [UNIT] <;> omega

/-! ### The run of timeouts -/

/-- The premises of R138: the last record of the state `s` cannot take a timeout, the budget covers `k - 1` units, and the
buffer holds the records of `k` timeouts; where the last of them fills it, the last timeout begins it. -/
structure FitsTimeouts (k : Nat) (s : State) : Prop where
  running : s.st = .running
  budget : s.bounded = true → ((k - 1 : Nat) : Int) * UNIT ≤ s.bud.toInt
  room : s.n + (k - 1) / CMAX + 1 ≤ s.par.nmax
  fills : s.n + (k - 1) / CMAX + 1 = s.par.nmax → (k - 1) % CMAX = 0
  short : s.n = 0 ∨ ∃ w, Memory.readWord s.buf (s.n - 1) = some w ∧ recFmt w = false

/-- The state `u` is one that `j` timeouts and any waits lead to from the state `s`. -/
structure AfterTimeouts (s : State) (j : Nat) (u : State) : Prop where
  lvl : u.lvl = s.lvl
  par : u.par = s.par
  bounded : u.bounded = s.bounded
  /-- a bounded session's budget is `j` units less (R160) -/
  budget : s.bounded = true → u.bud.toInt = s.bud.toInt - j * UNIT
  count : u.n = s.n + longRecords j
  /-- the session ends exactly on its stop conditions (R158) -/
  session : u.st = if u.n = u.par.nmax ∨ (u.bounded = true ∧ u.bud.toInt < 0) then .terminated else .running
  /-- the new records (R133, R134) -/
  written : ∀ i < longRecords j, Memory.readWord u.buf (s.n + i) = some (longRecord s.lvl j i)
  /-- the bytes of the old ones -/
  before : ∀ a < 4 * s.n, Memory.read u.buf a = Memory.read s.buf a

namespace AfterTimeouts

variable {s t u : State} {j k : Nat}

/-- The run begins at the state itself, with no timeout yet. -/
theorem zero (fit : FitsTimeouts k s) : AfterTimeouts s 0 s where
  lvl := rfl
  par := rfl
  bounded := rfl
  budget _ := by simp
  count := rfl
  session := by
    have hroom := fit.room
    rw [CMAX] at hroom
    rw [if_neg, fit.running]
    rintro (hn | ⟨hb, hbud⟩)
    · omega
    · have := fit.budget hb
      rw [UNIT] at this
      omega
  written i hi := absurd hi (Nat.not_lt_zero i)
  before _ _ := rfl

/-- Before the last of the timeouts there is room for one more. -/
theorem room (h : AfterTimeouts s j u) (fit : FitsTimeouts k s) (hj : j < k) : u.n < u.par.nmax := by
  have hroom := fit.room
  have hfills := fit.fills
  rw [h.count, h.par]
  simp only [longRecords, CMAX] at *
  omega

/-- Before the last of the timeouts the budget has not gone negative. -/
theorem left (h : AfterTimeouts s j u) (fit : FitsTimeouts k s) (hj : j < k) (hb : s.bounded = true) :
    0 ≤ u.bud.toInt := by
  have hbudget := fit.budget hb
  rw [h.budget hb]
  rw [UNIT] at *
  omega

/-- Before the last of the timeouts the session runs on. -/
theorem running (h : AfterTimeouts s j u) (fit : FitsTimeouts k s) (hj : j < k) : u.st = .running := by
  rw [h.session, if_neg]
  rintro (hn | ⟨hb, hbud⟩)
  · exact (h.room fit hj).ne hn
  · exact absurd hbud (not_lt.2 (h.left fit hj (h.bounded ▸ hb)))

/-- Driving the wires of an edge and waiting change nothing that the relation speaks of. -/
theorem frame (h : AfterTimeouts s j u) (hst : t.st = u.st) (hn : t.n = u.n) (hlvl : t.lvl = u.lvl) (hbud : t.bud = u.bud)
    (hbounded : t.bounded = u.bounded) (hbuf : t.buf = u.buf) (hpar : t.par = u.par) : AfterTimeouts s j t where
  lvl := hlvl.trans h.lvl
  par := hpar.trans h.par
  bounded := hbounded.trans h.bounded
  budget := hbud ▸ h.budget
  count := hn.trans h.count
  session := by rw [hst, hn, hbounded, hbud, hpar]; exact h.session
  written := hbuf ▸ h.written
  before := hbuf ▸ h.before

/-- The last record takes the next timeout exactly when the timeouts so far have not just saturated it (R132); the record
before the first timeout is short or there is none. -/
theorem mrg_eq (h : AfterTimeouts s j u) (fit : FitsTimeouts k s) : mrg u = decide (j % CMAX ≠ 0) := by
  rcases Nat.eq_zero_or_pos j with rfl | hj
  · have hn : u.n = s.n := h.count
    rcases fit.short with h0 | ⟨w, hw, hshort⟩
    · simp [mrg, hn, h0]
    rcases Nat.eq_zero_or_pos s.n with h0 | hpos
    · simp [mrg, hn, h0]
    have hword : Memory.readWord u.buf (u.n - 1) = some w := by
      rw [hn, ← hw]
      exact Memory.readWord_congr fun a ha => h.before a (by omega)
    rw [mrg_eq_mergeable (by omega) hword]
    simp [mergeable, hshort]
  · obtain ⟨i, rfl⟩ : ∃ i, j = i + 1 := ⟨j - 1, by omega⟩
    have hcount : u.n = s.n + i / CMAX + 1 := by rw [h.count, longRecords_succ, Nat.add_assoc]
    have hlast : u.n - 1 = s.n + i / CMAX := by rw [hcount, Nat.add_sub_cancel]
    have hpos : 0 < u.n := hcount ▸ Nat.succ_pos _
    have hword := h.written (i / CMAX) (by rw [longRecords_succ]; exact Nat.lt_succ_self _)
    rw [longRecord_last, ← h.lvl, ← hlast] at hword
    have hcnt : (BitVec.ofNat 23 (i % CMAX + 1)).toNat = i % CMAX + 1 := by
      simp only [BitVec.toNat_ofNat, CMAX]
      omega
    rw [mrg_eq_mergeable hpos hword, Bool.eq_iff_iff, mergeable_iff, recFmt_encLong, recSmp_encLong,
      recCnt_encLong, hcnt, decide_eq_true_iff]
    simp only [CMAX, true_and]
    omega

/-- One more timeout: the record number `j / CMAX` is written with one more unit, and the saturated ones before it stay.
-/
theorem next (h : AfterTimeouts s j u) (hleft : s.bounded = true → 0 ≤ u.bud.toInt) (hlvl : t.lvl = u.lvl)
    (hpar : t.par = u.par) (hbounded : t.bounded = u.bounded) (hbud : t.bud = u.bud - unitTicks)
    (hn : t.n = s.n + (j / CMAX + 1))
    (hst : t.st = if t.n = t.par.nmax ∨ (t.bounded = true ∧ t.bud.toInt < 0) then .terminated else .running)
    (hbuf : t.buf = Memory.writeWord u.buf (s.n + j / CMAX) (longRecord s.lvl (j + 1) (j / CMAX))) :
    AfterTimeouts s (j + 1) t where
  lvl := hlvl.trans h.lvl
  par := hpar.trans h.par
  bounded := hbounded.trans h.bounded
  budget hb := by
    rw [hbud, toInt_sub_unitTicks (hleft hb), h.budget hb]
    push_cast
    ring
  count := by rw [hn, longRecords_succ]
  session := hst
  written i hi := by
    rw [longRecords_succ] at hi
    rw [hbuf, Memory.readWord_writeWord]
    split
    · next heq => rw [show i = j / CMAX by omega]
    · next hne =>
      have hold : i < j / CMAX := by omega
      have hdiv : j / CMAX ≤ (j + 1) / CMAX := Nat.div_le_div_right (Nat.le_succ j)
      rw [h.written i (by rw [longRecords_eq]; split <;> omega), longRecord_of_saturated _ hold,
        longRecord_of_saturated _ (hold.trans_le hdiv)]
  before a ha := by
    have hlt : a / 4 < s.n := by omega
    rw [hbuf, Memory.read_writeWord_other _ _ _ _ (hlt.trans_le (Nat.le_add_right _ _)).ne]
    exact h.before a ha

/-- Where the last record is long and not saturated, the timeout goes into it (R134). -/
theorem merged (h : AfterTimeouts s j u) (hrun : u.st = .running) (hleft : s.bounded = true → 0 ≤ u.bud.toInt)
    (hj : j % CMAX ≠ 0) : AfterTimeouts s (j + 1) (mergedInto u) := by
  have hcount : u.n = s.n + (j / CMAX + 1) := by rw [h.count, longRecords_eq, if_neg hj]
  have hlast : u.n - 1 = s.n + j / CMAX := by rw [hcount, ← Nat.add_assoc, Nat.add_sub_cancel]
  have hword := h.written (j / CMAX) (by rw [longRecords_eq, if_neg hj]; exact Nat.lt_succ_self _)
  refine h.next hleft (mergedInto_lvl u) (mergedInto_par u) (mergedInto_bounded u) (mergedInto_bud u)
    ((mergedInto_n u).trans hcount) ?_ ?_
  · rw [mergedInto_n, mergedInto_par, mergedInto_bounded, mergedInto_bud]
    exact terminationTest_st_of_running _ _ hrun
  · rw [mergedInto_buf, hlast, bufRead_of_readWord hword, longRecord_div, bumpCount_encLong, longRecord_last,
      BitVec.ofNat_add]
    rfl

/-- Where it is saturated, or no timeout has come yet, the timeout begins a new record (R133). -/
theorem appended (h : AfterTimeouts s j u) (hrun : u.st = .running) (hleft : s.bounded = true → 0 ≤ u.bud.toInt)
    (hj : j % CMAX = 0) : AfterTimeouts s (j + 1) (timedOut u) := by
  have hcount : u.n = s.n + j / CMAX := by rw [h.count, longRecords_eq, if_pos hj]
  refine h.next hleft (timedOut_lvl u) (timedOut_par u) (timedOut_bounded u) (timedOut_bud u) ?_ ?_ ?_
  · rw [timedOut_n, hcount, Nat.add_assoc]
  · rw [timedOut_n, timedOut_par, timedOut_bounded, timedOut_bud]
    exact terminationTest_st_of_running _ _ hrun
  · rw [timedOut_buf, hcount, longRecord_last, hj, h.lvl]
    rfl

/-- A timeout edge within the run: it merges or appends, and one more timeout has come. -/
theorem edge (h : AfterTimeouts s j u) (fit : FitsTimeouts k s) (hj : j < k) (hrst : u.env.ports.rst = false)
    (htmo : tmo u = true) : ∃ t, EdgeTo u t ∧ AfterTimeouts s (j + 1) t ∧ t.bnd = advanced u.bnd := by
  have hrun := h.running fit hj
  have hroom := h.room fit hj
  have hmrg := h.mrg_eq fit
  by_cases hsat : j % CMAX = 0
  · exact ⟨timedOut u, .append hrst hrun hroom htmo (by simp [hmrg, hsat]), h.appended hrun (h.left fit hj) hsat,
      timedOut_bnd u⟩
  · exact ⟨mergedInto u, .merge hrst hrun hroom htmo (by simp [hmrg, hsat]), h.merged hrun (h.left fit hj) hsat,
      mergedInto_bnd u⟩

end AfterTimeouts

/-- A run of timeouts and waits that ends in a timeout has one. -/
theorem timeoutCount_pos {lvl : Byte} {ps : List Ports} : ∀ {bnd : Tick}, ps ≠ [] → timeoutsAndWaits lvl bnd ps →
    0 < timeoutCount bnd ps := by
  induction ps with
  | nil => exact fun h => absurd rfl h
  | cons p ps ih =>
    intro bnd _ hruns
    obtain ⟨-, hruns⟩ := hruns
    rw [timeoutCount]
    split
    · exact Nat.succ_pos _
    · next htmo =>
      rw [if_neg htmo] at hruns
      obtain ⟨-, hne, hrest⟩ := hruns
      exact ih hne hrest

/-- The edges of the run, one after another: each completes, and together they are the timeouts counted. -/
theorem runSteps_timeouts {s : State} {k : Nat} (fit : FitsTimeouts k s) (ps : List Ports) : ∀ {u : State} {j : Nat},
    AfterTimeouts s j u → j + timeoutCount u.bnd ps = k → u.env.pending = ps.map .clock →
    timeoutsAndWaits s.lvl u.bnd ps → ∃ t, runSteps ps.length u = .next t ∧ AfterTimeouts s k t := by
  induction ps with
  | nil =>
    intro u j h hk _ _
    obtain rfl : j = k := hk
    exact ⟨u, runSteps_zero u, h⟩
  | cons p ps ih =>
    intro u j h hk hp hruns
    have hj : j < k := by
      have := timeoutCount_pos (List.cons_ne_nil p ps) hruns
      omega
    obtain ⟨hrst, hruns⟩ := hruns
    have hdriven : AfterTimeouts s j (driveEdge u p (ps.map .clock)) := h.frame rfl rfl rfl rfl rfl rfl rfl
    rw [timeoutCount] at hk
    cases htmo : tmoOf u.bnd p.tickIn with
    | true =>
      rw [if_pos htmo] at hk hruns
      obtain ⟨v, he, hv, hbnd⟩ := hdriven.edge fit hj hrst htmo
      have hstep : step u = .next v := (step_clock hp).trans he.exec_eq
      have hpending : v.env.pending = ps.map .clock := congrArg Environment.pending (edge_frame he.exec_eq).1
      change v.bnd = advanced u.bnd at hbnd
      rw [← hbnd] at hk hruns
      obtain ⟨t, ht, hafter⟩ := ih hv (by omega) hpending hruns
      exact ⟨t, (runSteps_succ ps.length hstep).trans ht, hafter⟩
    | false =>
      rw [if_neg (by simp [htmo])] at hk hruns
      obtain ⟨hlevel, -, hrest⟩ := hruns
      have hchg : chg (driveEdge u p (ps.map .clock)) = false := by
        simp [chg, sample, hlevel, h.lvl]
      have he : EdgeTo (driveEdge u p (ps.map .clock)) (setIndicators (driveEdge u p (ps.map .clock)) true false) :=
        .wait hrst (h.running fit hj) (h.room fit hj).ne htmo hchg
      have hstep := (step_clock hp).trans he.exec_eq
      obtain ⟨t, ht, hafter⟩ := ih (u := setIndicators (driveEdge u p (ps.map .clock)) true false)
        (h.frame rfl rfl rfl rfl rfl rfl rfl) hk rfl hrest
      exact ⟨t, (runSteps_succ ps.length hstep).trans ht, hafter⟩

/-- Settles O48, by induction on the edges with the records after `j` timeouts as the invariant. -/
theorem timeoutsFillLongRecords : Obligations.TimeoutsFillLongRecords := by
  intro k ps s hst hcount hk hbudget hroom hfills hshort hp hruns
  have fit : FitsTimeouts k s := ⟨hst, hbudget, hroom, hfills, hshort⟩
  obtain ⟨t, ht, h⟩ := runSteps_timeouts fit ps (.zero fit) (by omega) hp hruns
  obtain ⟨i, rfl⟩ : ∃ i, k = i + 1 := ⟨k - 1, by omega⟩
  have hn := h.count
  have hwritten := h.written
  rw [longRecords_succ] at hn hwritten
  rw [Nat.add_sub_cancel]
  refine ⟨t, ht, ?_, h.lvl, hn, fun j hj => ?_, ?_, h.before⟩
  · have hspent : t.bounded = true ∧ t.bud.toInt < 0 ↔ s.bounded = true ∧ s.bud.toInt < ((i + 1 : Nat) : Int) * UNIT := by
      rw [h.bounded]
      exact and_congr_right fun hb => by rw [h.budget hb, sub_neg]
    simp only [h.session, hspent, hn, h.par, Nat.add_assoc]
  · have hdiv : i / CMAX ≤ (i + 1) / CMAX := Nat.div_le_div_right (Nat.le_succ i)
    rw [hwritten j (by omega), longRecord_of_saturated _ (hj.trans_le hdiv)]
  · have hrest : i + 1 - CMAX * (i / CMAX) = i % CMAX + 1 := by
      have := Nat.div_add_mod i CMAX
      omega
    rw [hwritten _ (Nat.lt_succ_self _), longRecord_last, hrest]

end Sys2Proof.Machine

/-! PROOFS. TERMINATION_TEST field by field and what it does not look at (43_session.md rule R158), and the step at a scripted
edge (R150, R151, R200). -/

namespace Sys2Proof.Machine

/-! ### TERMINATION_TEST -/

/-- TERMINATION_TEST field by field, on the two stop conditions (R158). -/
theorem terminationTest_eq (s : State) (n' : Nat) (bud' : Budget) :
    terminationTest s n' bud' =
      { s with
        n := n', bud := bud',
        st := if stopFull s n' || stopBudget s bud' then .terminated else s.st,
        termFull := if stopFull s n' || stopBudget s bud' then stopFull s n' else s.termFull,
        termBudget := if stopFull s n' || stopBudget s bud' then stopBudget s bud' else s.termBudget,
        indWait := false, indActive := !(stopFull s n' || stopBudget s bud') } := by
  rw [terminationTest]
  cases stopFull s n' || stopBudget s bud' <;> rfl

theorem stopFull_eq_decide (s : State) (n' : Nat) : stopFull s n' = decide (n' = s.par.nmax) := beq_eq_decide _ _

/-- TERMINATION_TEST looks at no buffer word: states that differ in the buffer alone go on to differ in it alone (R158). -/
theorem terminationTest_of_buf {s s' : State} (h : s' = { s with buf := s'.buf }) (n' : Nat) (bud' : Budget) :
    terminationTest s' n' bud' = { terminationTest s n' bud' with buf := (terminationTest s' n' bud').buf } := by
  obtain ⟨b, rfl⟩ : ∃ b, s' = { s with buf := b } := ⟨_, h⟩
  rw [terminationTest_eq, terminationTest_eq]
  rfl

/-! ### Scripted edges -/

/-- A scripted edge takes no event but its own from the list. -/
theorem pending_of_step_clock {s t : State} {p : Ports} {rest : List HostEvent} (hp : s.env.pending = .clock p :: rest)
    (h : step s = .next t) : t.env.pending = rest :=
  congrArg Environment.pending (edge_frame (step_clock hp ▸ h)).1

/-- An edge that can be taken is the step at a scripted edge. -/
theorem step_clock_of_edgeTo {s t : State} {p : Ports} {rest : List HostEvent} (hp : s.env.pending = .clock p :: rest)
    (he : EdgeTo (driveEdge s p rest) t) : step s = .next t :=
  (step_clock hp).trans he.exec_eq

/-- A START at a scripted edge outside RUNNING. -/
theorem step_start {s : State} {p : Ports} {rest : List HostEvent} (hp : s.env.pending = .clock p :: rest)
    (hrst : p.rst = false) (hst : s.st ≠ .running) (hstart : p.start = true) :
    step s = .next (beginSession (driveEdge s p rest)) :=
  step_clock_of_edgeTo hp (.start hrst hst hstart)

/-- Every edge can be taken where `n <= NMAX` (R200). -/
theorem exists_edgeTo {s : State} (hn : s.n ≤ s.par.nmax) : ∃ t, EdgeTo s t := by
  cases hrst : s.env.ports.rst with
  | true => exact ⟨_, .reset hrst⟩
  | false =>
    by_cases hst : s.st = .running
    · by_cases hfull : s.n = s.par.nmax
      · exact ⟨_, .full hrst hst hfull⟩
      · have hroom : s.n < s.par.nmax := by omega
        cases htmo : tmo s with
        | true =>
          cases hmrg : mrg s with
          | true => exact ⟨_, .merge hrst hst hroom htmo hmrg⟩
          | false => exact ⟨_, .append hrst hst hroom htmo hmrg⟩
        | false =>
          cases hchg : chg s with
          | true => exact ⟨_, .change hrst hst hroom htmo hchg⟩
          | false => exact ⟨_, .wait hrst hst hfull htmo hchg⟩
    · cases hstart : s.env.ports.start with
      | true => exact ⟨_, .start hrst hst hstart⟩
      | false => exact ⟨_, .hold hrst hst hstart⟩

end Sys2Proof.Machine

/-! PROOFS. A session depends on nothing before its START (43_session.md rule R175): two runs that agree on all but the
words beyond `n` go on to agree. -/

namespace Sys2Proof.Machine

namespace SameRecords

variable {s t : State}

/-- With no records, equal registers are enough: RESET and START leave such states (R63, R223). -/
theorem of_no_records (hregs : t = { s with buf := t.buf }) (hn : s.n = 0) : SameRecords s t where
  registers := hregs
  records i hi := by omega

/-- An internal read of a record finds the same word in both. -/
theorem bufRead_eq (h : SameRecords s t) {i : Nat} (hi : i < s.n) : bufRead t i = bufRead s i := by
  obtain ⟨w, hw, hw'⟩ := h.records i hi
  rw [bufRead_of_readWord hw, bufRead_of_readWord hw']

/-- MERGE_TEST reads the last record or nothing, so it answers the same (R132). -/
theorem mrg_eq (h : SameRecords s t) : mrg t = mrg s := by
  have hn : t.n = s.n := by rw [h.registers]
  have hlvl : t.lvl = s.lvl := by rw [h.registers]
  rw [mrg, mrg, hn, hlvl]
  by_cases hpos : 0 < s.n
  · rw [h.bufRead_eq (by omega)]
  · simp [hpos]

/-- The observation looks at the registers and the records alone (R168). -/
theorem observation_eq (h : SameRecords s t) : observation t = observation s := by
  have hrec : Machine.records t = Machine.records s := records_congr (by rw [h.registers]) h.records
  rw [observation, observation, hrec, h.registers]

/-- The same registers and the same word written at the same index, with the earlier records there before: the same
records. -/
theorem written {u v : State} {i : Nat} {w : Word} (h : SameRecords s t) (hregs : v = { u with buf := v.buf })
    (hu : u.buf = Memory.writeWord s.buf i w) (hv : v.buf = Memory.writeWord t.buf i w)
    (hn : ∀ j < u.n, j ≠ i → j < s.n) : SameRecords u v where
  registers := hregs
  records j hj := by
    rw [hu, hv, Memory.readWord_writeWord, Memory.readWord_writeWord]
    by_cases hji : j = i
    · simp [hji]
    · simpa [hji] using h.records j (hn j hj hji)

end SameRecords

/-- The simulation: from states with the same records, an edge leaves states with the same records; its conditions and its
writes look at no word beyond `n` (R175). -/
theorem EdgeTo.sameRecords {s t s' : State} (he : EdgeTo s t) (h : SameRecords s s') :
    ∃ t', EdgeTo s' t' ∧ SameRecords t t' := by
  have hmrg_eq := h.mrg_eq
  obtain ⟨b, rfl⟩ : ∃ b, s' = { s with buf := b } := ⟨_, h.registers⟩
  cases he with
  | reset hrst => exact ⟨_, .reset hrst, .of_no_records rfl rfl⟩
  | start hrst hst hstart => exact ⟨_, .start hrst hst hstart, .of_no_records rfl rfl⟩
  | hold hrst hst hstart => exact ⟨_, .hold hrst hst hstart, rfl, h.records⟩
  | full hrst hst hn =>
    exact ⟨_, .full hrst hst hn, terminationTest_of_buf rfl _ _, by simpa using h.records⟩
  | merge hrst hst hn htmo hmrg =>
    have hpos := pos_of_mrg hmrg
    have hread := h.bufRead_eq (i := s.n - 1) (by omega)
    refine ⟨_, .merge hrst hst hn htmo (hmrg_eq.trans hmrg),
      h.written (terminationTest_of_buf rfl _ _) (mergedInto_buf s) ?_ (by simp; omega)⟩
    rw [mergedInto_buf, hread]
  | append hrst hst hn htmo hmrg =>
    exact ⟨_, .append hrst hst hn htmo (hmrg_eq.trans hmrg),
      h.written (terminationTest_of_buf rfl _ _) (timedOut_buf s) (timedOut_buf _) (by simp; omega)⟩
  | change hrst hst hn htmo hchg =>
    exact ⟨_, .change hrst hst hn htmo hchg,
      h.written (terminationTest_of_buf rfl _ _) (changed_buf s) (changed_buf _) (by simp; omega)⟩
  | wait hrst hst hn htmo hchg => exact ⟨_, .wait hrst hst hn htmo hchg, rfl, h.records⟩

/-- Any edges keep two states with the same records so, by induction on their list (R175). -/
theorem runSteps_sameRecords (ps : List Ports) : ∀ {s t s' : State}, SameRecords s s' → s.env.pending = ps.map .clock →
    runSteps ps.length s = .next t → ∃ t', runSteps ps.length s' = .next t' ∧ SameRecords t t' := by
  induction ps with
  | nil =>
    intro s t s' h _ hrun
    cases hrun
    exact ⟨s', rfl, h⟩
  | cons p ps ih =>
    intro s t s' h hp hrun
    obtain ⟨u, hu, hrun⟩ := step_of_runSteps_succ hrun
    have hp' : s'.env.pending = .clock p :: ps.map .clock := by rw [h.registers]; exact hp
    have hdriven : SameRecords (driveEdge s p (ps.map .clock)) (driveEdge s' p (ps.map .clock)) :=
      ⟨congrArg (driveEdge · p (ps.map .clock)) h.registers, h.records⟩
    obtain ⟨u', he, hsame⟩ := (edgeTo_of_step_clock hp hu).sameRecords hdriven
    obtain ⟨t', ht', hsame⟩ := ih hsame (pending_of_step_clock hp hu) hrun
    exact ⟨t', (runSteps_succ ps.length (step_clock_of_edgeTo hp' he)).trans ht', hsame⟩

/-- START writes every register from its inputs, so what was before shows in the buffer alone (R151, R175). -/
theorem sameRecords_beginSession {s s' : State} (hpar : s'.par = s.par) (henv : s'.env = s.env) :
    SameRecords (beginSession s) (beginSession s') := by
  refine .of_no_records ?_ rfl
  simp only [beginSession, startBudget, sample, hpar, henv]

/-- Settles O50: START leaves the same registers with no records, and from there every edge keeps the simulation. -/
theorem sessionsAreIndependent : Obligations.SessionsAreIndependent := by
  intro p ps s s' t hst hst' hpar henv hp hrst hstart hrun
  have hstep := step_start hp hrst hst hstart
  have hstep' := step_start (henv ▸ hp) hrst hst' hstart
  rw [runSteps_succ _ hstep] at hrun
  have hsame : SameRecords (beginSession (driveEdge s p (ps.map .clock))) (beginSession (driveEdge s' p (ps.map .clock))) :=
    sameRecords_beginSession hpar (by rw [driveEdge, driveEdge, henv])
  obtain ⟨t', ht', hsame⟩ := runSteps_sameRecords ps hsame rfl hrun
  exact ⟨t', (runSteps_succ _ hstep').trans ht', hsame, hsame.observation_eq⟩

end Sys2Proof.Machine

/-! PROOFS. Every tick that passes in a session is recorded or still pending, so a session under the host's duties fills its
buffer in bounded time (43_session.md rules R162 and R176). -/

namespace Sys2Proof.Machine

/-! ### The ticks of a session -/

/-- A buffer accounts for at most `CMAX` units for each record (R84). -/
theorem totalDuration_le (s : State) : totalDuration s ≤ s.n * (CMAX * UNIT) := by
  have h : ∀ d ∈ (records s).map recordDuration, d ≤ CMAX * UNIT := by
    rintro d hd
    obtain ⟨w, -, rfl⟩ := List.mem_map.1 hd
    exact recordDuration_le w
  simpa [totalDuration, length_records] using List.sum_le_card_nsmul _ _ h

/-- Driving the wires of an edge changes no record. -/
theorem TraceInv.totalDuration_driveEdge {s : State} (h : TraceInv s) (p : Ports) (rest : List HostEvent) :
    totalDuration (driveEdge s p rest) = totalDuration s := by
  rw [totalDuration, totalDuration, h.records_driveEdge]

/-- A timeout that merges accounts for one more unit (R157). -/
theorem TraceInv.totalDuration_mergedInto {s : State} (h : TraceInv s) (hmrg : mrg s = true) :
    totalDuration (mergedInto s) = totalDuration s + UNIT := by
  obtain ⟨w, -, hb, hf, hc⟩ := h.last_of_mrg hmrg
  have hdur := totalDuration_merge (pos_of_mrg hmrg)
    (records_merge (mergedInto_env s) (mergedInto_buf s) (mergedInto_n s) (pos_of_mrg hmrg))
  rw [hb, recordDuration_bumpCount hf hc] at hdur
  omega

/-- A timeout that appends accounts for one more unit (R156). -/
theorem totalDuration_timedOut (s : State) : totalDuration (timedOut s) = totalDuration s + UNIT := by
  rw [totalDuration_append (records_append (timedOut_env s) (timedOut_buf s) (timedOut_n s)), recordDuration_encLong_one]

/-- A change accounts for the whole interval (R155). -/
theorem totalDuration_changed {s : State} (htmo : tmo s = false) :
    totalDuration (changed s) = totalDuration s + (elapsed s).toNat := by
  rw [totalDuration_append (records_append (changed_env s) (changed_buf s) (changed_n s)),
    recordDuration_encShort _ ((tmo_eq_false_iff s).1 htmo)]

/-- The ticks from the session's start to the last reading: those in the records and those since the boundary (R86). -/
def ticksSeen (s : State) : Nat := totalDuration s + (elapsed s).toNat

/-- An edge of a session moves ticks from the interval to the records and loses none (R102, R103). -/
theorem EdgeTo.ticksSeen_eq {s t : State} (he : EdgeTo s t) (hinv : TraceInv s) (hrst : s.env.ports.rst = false)
    (hst : s.st = .running) : ticksSeen t = ticksSeen s := by
  cases he with
  | reset hrst' => rw [hrst] at hrst'; cases hrst'
  | start _ hst' => exact absurd hst hst'
  | hold _ hst' => exact absurd hst hst'
  | full _ _ hn => exact absurd hn (hinv.room hst).ne
  | merge _ _ _ htmo hmrg =>
    have hleft := elapsedBetween_advanced ((tmo_eq_true_iff s).1 htmo)
    simp only [ticksSeen, elapsed, hinv.totalDuration_mergedInto hmrg, mergedInto_bnd, mergedInto_env]
    omega
  | append _ _ _ htmo =>
    have hleft := elapsedBetween_advanced ((tmo_eq_true_iff s).1 htmo)
    simp only [ticksSeen, elapsed, totalDuration_timedOut, timedOut_bnd, timedOut_env]
    omega
  | change _ _ _ htmo => simp [ticksSeen, totalDuration_changed htmo, elapsed]
  | wait => rfl

/-- A running session has room for one record more than it holds and less than a unit pending, so it has seen fewer ticks than
its buffer can account for. -/
theorem TraceInv.ticksSeen_lt {s : State} (h : TraceInv s) (hst : s.st = .running) (helapsed : (elapsed s).toNat < UNIT) :
    ticksSeen s < s.par.nmax * CMAX * UNIT := by
  have hdur := totalDuration_le s
  have hroom := h.room hst
  simp only [ticksSeen, CMAX, UNIT] at *
  omega

/-! ### The end of a session -/

/-- An edge that keeps the host's spacing brings at least one tick (R230). -/
theorem ticksSeen_driveEdge {s : State} {p : Ports} {rest : List HostEvent} (hinv : TraceInv s)
    (helapsed : (elapsed s).toNat < UNIT) (hspaced : spacedBy s.env.ports.tickIn p.tickIn) :
    ticksSeen s + 1 ≤ ticksSeen (driveEdge s p rest) := by
  have hsum : (elapsed (driveEdge s p rest)).toNat = (elapsed s).toNat + (elapsedBetween s.env.ports.tickIn p.tickIn).toNat :=
    toNat_elapsedBetween_of_spacedBy helapsed hspaced
  obtain ⟨hpos, -⟩ := hspaced
  rw [ticksSeen, ticksSeen, hsum, hinv.totalDuration_driveEdge]
  omega

/-- With the duties kept, a running session ends before it has seen `NMAX * CMAX * UNIT` ticks, by induction on the edges:
each brings a tick, and a session that runs on has seen fewer. -/
theorem exists_terminated (ps : List Ports) : ∀ {s : State}, TraceInv s → s.st = .running → (elapsed s).toNat < UNIT →
    s.env.pending = ps.map .clock → keepsDuties s.env.ports.tickIn ps →
    s.par.nmax * CMAX * UNIT ≤ ticksSeen s + ps.length →
    ∃ k t, ticksSeen s + k ≤ s.par.nmax * CMAX * UNIT ∧ runSteps k s = .next t ∧ t.st = .terminated := by
  induction ps with
  | nil =>
    intro s hinv hst helapsed _ _ hlen
    exact absurd hlen (not_le.2 (hinv.ticksSeen_lt hst helapsed))
  | cons p ps ih =>
    intro s hinv hst helapsed hp hduties hlen
    obtain ⟨hrst, hspaced, hduties⟩ := hduties
    have hinv' : TraceInv (driveEdge s p (ps.map .clock)) := hinv.frame rfl rfl rfl rfl rfl
    obtain ⟨t, he⟩ := exists_edgeTo (s := driveEdge s p (ps.map .clock)) hinv.count
    have hstep := step_clock_of_edgeTo hp he
    obtain ⟨henv, hpar⟩ := edge_frame he.exec_eq
    have hseen : ticksSeen s + 1 ≤ ticksSeen t := by
      rw [he.ticksSeen_eq hinv' hrst hst]
      exact ticksSeen_driveEdge hinv helapsed hspaced
    cases ht : t.st with
    | idle => exact absurd ht (he.ne_idle (by simp [hst]) hrst)
    | terminated => exact ⟨1, t, hinv.ticksSeen_lt hst helapsed, runSteps_succ 0 hstep, ht⟩
    | running =>
      rw [← driveEdge_par s p (ps.map .clock), ← hpar] at hlen ⊢
      have hduties' : keepsDuties t.env.ports.tickIn ps := by rw [henv]; exact hduties
      rw [List.length_cons] at hlen
      obtain ⟨k, u, hk, hrun, hu⟩ := ih (hinv'.keptByEdge he) ht (elapsedBetween_lt_of_edge he ht)
        (pending_of_step_clock hp hstep) hduties' (by omega)
      exact ⟨k + 1, u, by omega, (runSteps_succ k hstep).trans hrun, hu⟩

/-- Settles O51: a session has seen no tick after its START, and every edge brings one. -/
theorem sessionEndsInBoundedTime : Obligations.SessionEndsInBoundedTime := by
  intro p ps s hinv hst hp hrst hstart hduties hlen
  have hstep := step_start hp hrst hst hstart
  have hinv' : TraceInv (beginSession (driveEdge s p (ps.map .clock))) := stepKeepsTraceInvariant _ _ hinv hstep
  obtain ⟨k, t, hk, hrun, ht⟩ := exists_terminated ps hinv' rfl (by simp [elapsed]) rfl hduties (le_add_left hlen)
  exact ⟨k, t, (Nat.le_add_left _ _).trans hk, (runSteps_succ k hstep).trans hrun, ht⟩

end Sys2Proof.Machine

/-! PROOFS. The operations of the session one by one: the step and its selector (43_session.md rules R150 and R203), and what
each operation writes and leaves (R151 to R159, R161, R172). -/

namespace Sys2Proof.Machine

/-! ### The step and its selector -/

/-- A step at a free edge is the operation its selector picks (R209; log 3). -/
theorem step_free {s : State} (h : s.env.pending = []) :
    step s = exec (decodeSelector (selector (driveEdge s (freePorts s.env.edges) [])))
      (driveEdge s (freePorts s.env.edges) []) := by
  simp only [step, fetch, h, fetchEdge]

/-- One byte decodes as a selector (R89). -/
theorem eq_of_decode_selector {sel : Byte} {i : Instr} (h : decode [sel] = .ok i) : i = decodeSelector sel :=
  (Decoded.ok.inj h).symm

/-- Settles O12, one kind of event after another. -/
theorem stepRunsDecodedOperation : Obligations.StepRunsDecodedOperation := by
  refine ⟨fun s p rest i hp hi => ?_, fun s p rest i hp hi => ?_, fun s i hp hi => ?_, fun s addr rest i hp hi => ?_,
    fun s rest i hp hi => ?_, fun s rest hp => step_rewind hp⟩
  · rw [step_clock hp, eq_of_decode_selector hi]
  · rw [eq_of_decode_selector hi]
    simp only [step, fetch, hp, fetchForcedEdge]
  · rw [step_free hp, eq_of_decode_selector hi]
  · cases hi
    simp only [step, fetch, hp]
  · rw [decode_lanes] at hi
    cases hi
    simp only [step, fetch, hp]

/-- Settles O13: the decoder of a packed selector and the priority order are one chain of conditions. -/
theorem operationFollowsPriority : Obligations.OperationFollowsPriority := fun s =>
  (selects_iff_priorityOperation s _).2 rfl

/-- An edge selects one operation (R90). -/
theorem selects_unique {s : State} {op op' : Operation} (h : selects s op) (h' : selects s op') : op = op' :=
  Option.some.inj (h.symm.trans h')

section
variable {s : State}

theorem selects_reset (hrst : s.env.ports.rst = true) : selects s .reset := by
  rw [selects_iff_priorityOperation]
  simp [priorityOperation, hrst]

theorem selects_start (hrst : s.env.ports.rst = false) (hstart : s.env.ports.start = true) (hst : s.st ≠ .running) :
    selects s .start := by
  rw [selects_iff_priorityOperation]
  cases h : s.st with
  | running => exact absurd h hst
  | idle => simp [priorityOperation, hrst, hstart, h]
  | terminated => simp [priorityOperation, hrst, hstart, h]

theorem selects_idleHold (hrst : s.env.ports.rst = false) (hstart : s.env.ports.start = false) (hst : s.st = .idle) :
    selects s .idleHold := by
  rw [selects_iff_priorityOperation]
  simp [priorityOperation, hrst, hstart, hst]

theorem selects_termHold (hrst : s.env.ports.rst = false) (hstart : s.env.ports.start = false) (hst : s.st = .terminated) :
    selects s .termHold := by
  rw [selects_iff_priorityOperation]
  simp [priorityOperation, hrst, hstart, hst]

theorem selects_runFull (hrst : s.env.ports.rst = false) (hst : s.st = .running) (hfull : full s = true) :
    selects s .runFull := by
  rw [selects_iff_priorityOperation]
  simp [priorityOperation, hrst, hst, hfull]

theorem selects_runTmoMerge (hrst : s.env.ports.rst = false) (hst : s.st = .running) (hfull : full s = false)
    (htmo : tmo s = true) (hmrg : mrg s = true) : selects s .runTmoMerge := by
  rw [selects_iff_priorityOperation]
  simp [priorityOperation, hrst, hst, hfull, htmo, hmrg]

theorem selects_runTmoAppend (hrst : s.env.ports.rst = false) (hst : s.st = .running) (hfull : full s = false)
    (htmo : tmo s = true) (hmrg : mrg s = false) : selects s .runTmoAppend := by
  rw [selects_iff_priorityOperation]
  simp [priorityOperation, hrst, hst, hfull, htmo, hmrg]

theorem selects_runChange (hrst : s.env.ports.rst = false) (hst : s.st = .running) (hfull : full s = false)
    (htmo : tmo s = false) (hchg : chg s = true) : selects s .runChange := by
  rw [selects_iff_priorityOperation]
  simp [priorityOperation, hrst, hst, hfull, htmo, hchg]

theorem selects_runWait (hrst : s.env.ports.rst = false) (hst : s.st = .running) (hfull : full s = false)
    (htmo : tmo s = false) (hchg : chg s = false) : selects s .runWait := by
  rw [selects_iff_priorityOperation]
  simp [priorityOperation, hrst, hst, hfull, htmo, hchg]
end

/-! ### Operations that store no word -/

/-- The budget that START stores is the exact product for every tick rate up to R8's bound (R27, R151). -/
theorem toInt_startBudget_of_le {s : State} (h : s.par.ticksPerMs ≤ 2 ^ 30) :
    (startBudget s).toInt = (s.env.ports.tmaxMs.toNat : Int) * s.par.ticksPerMs := by
  have hlt : s.env.ports.tmaxMs.toNat * s.par.ticksPerMs < 2 ^ 63 := calc
    s.env.ports.tmaxMs.toNat * s.par.ticksPerMs ≤ 2 ^ 32 * 2 ^ 30 := Nat.mul_le_mul s.env.ports.tmaxMs.isLt.le h
    _ < 2 ^ 63 := by norm_num
  rw [startBudget, toInt_ofNat_of_lt hlt, Nat.cast_mul]

/-- Settles O17: the product of 32 and 30 bits does not wrap in the 64-bit register. -/
theorem startBeginsSession : Obligations.StartBeginsSession :=
  ⟨fun _ _ _ _ _ s h => ⟨startBudget s, toInt_startBudget_of_le h, rfl⟩,
    fun _ hrst hstart hst => selects_start hrst hstart hst⟩

/-- Settles O18: both operations write the indicators alone. -/
theorem holdsLowerOnlyTheIndicators : Obligations.HoldsLowerOnlyTheIndicators :=
  ⟨fun _ _ _ _ _ => ⟨rfl, rfl⟩, fun _ hrst hstart => ⟨selects_idleHold hrst hstart, selects_termHold hrst hstart⟩⟩

/-- Settles O20: the operation writes the indicators alone, and it is last in the order of R150. -/
theorem waitChangesOnlyTheIndicators : Obligations.WaitChangesOnlyTheIndicators :=
  ⟨fun _ _ _ => rfl, fun _ hrst hst hfull htmo hchg => selects_runWait hrst hst hfull htmo hchg⟩

/-- TERMINATION_TEST on a full buffer always ends the session (R158, R159). -/
theorem terminationTest_of_full {s : State} (h : s.n = s.par.nmax) :
    terminationTest s s.n s.bud =
      { s with
        st := .terminated, termFull := true, termBudget := s.bounded && decide (s.bud.toInt < 0), indWait := false,
        indActive := false } := by
  have hstop : stopFull s s.n = true := beq_iff_eq.2 h
  rw [terminationTest_eq, hstop]
  rfl

/-- Settles O24: on a full buffer the first stop condition fires whatever the budget is. -/
theorem fullBufferEndsSession : Obligations.FullBufferEndsSession :=
  ⟨fun _ _ _ _ _ h => congrArg Host.Outcome.next (terminationTest_of_full h),
    fun s hrst hst h => selects_runFull hrst hst ((full_eq_true_iff s).2 h)⟩

/-! ### The three commits -/

/-- Settles O21: with room the append stores the word, and below one unit its count is the interval. -/
theorem changeCommitsShortRecord : Obligations.ChangeCommitsShortRecord := by
  refine ⟨fun s => selects_runChange, fun start mrg s hn hlt => ?_⟩
  refine ⟨changed s, encShort (elapsed s) s.lvl, execRunChange_of_room hn, recFmt_encShort _ _, recCnt_encShort_toNat _ hlt,
    recSmp_encShort _ _, ?_, fun a ha => ?_, ?_⟩
  · rw [changed_buf, Memory.readWord_writeWord_same]
  · rw [changed_buf, Memory.read_writeWord_other _ _ _ _ ha]
  · rw [changed_buf, changed, terminationTest_eq, stopFull_eq_decide]
    rfl

/-- Settles O22: with room the append stores the word of one unit. -/
theorem timeoutAppendsLongRecord : Obligations.TimeoutAppendsLongRecord := by
  refine ⟨fun s => selects_runTmoAppend, fun start chg s hn => ?_⟩
  refine ⟨timedOut s, encLong 1 s.lvl, execRunTmoAppend_of_room hn, recFmt_encLong _ _, recCnt_encLong _ _,
    recSmp_encLong _ _, ?_, fun a ha => ?_, ?_⟩
  · rw [timedOut_buf, Memory.readWord_writeWord_same]
  · rw [timedOut_buf, Memory.read_writeWord_other _ _ _ _ ha]
  · rw [timedOut_buf, timedOut, terminationTest_eq, stopFull_eq_decide]
    rfl

/-- Settles O23: a merge leaves the count below `NMAX`, so of the two stop conditions only the budget can fire. -/
theorem timeoutMergesIntoLastRecord : Obligations.TimeoutMergesIntoLastRecord := by
  refine ⟨fun s => selects_runTmoMerge, fun start chg s w hpos hn hw hm => ?_⟩
  obtain ⟨-, -, hcnt⟩ := (mergeable_iff w s.lvl).1 hm
  have hbuf : (mergedInto s).buf = Memory.writeWord s.buf (s.n - 1) (w + 0x100) := by
    rw [mergedInto_buf, bufRead_of_readWord hw, bumpCount_eq_add hcnt]
  refine ⟨mergedInto s, execRunTmoMerge_of_room hpos hn, ?_, fun a ha => ?_, ?_⟩
  · rw [hbuf, Memory.readWord_writeWord_same]
  · rw [hbuf, Memory.read_writeWord_other _ _ _ _ ha]
  · have hroom : decide (s.n = s.par.nmax) = false := decide_eq_false hn.ne
    rw [mergedInto_buf, mergedInto, terminationTest_eq, stopFull_eq_decide, hroom, Bool.false_or]
    rfl

/-- Settles O27: at `2^23 - 1` ticks the count is the largest, and one tick more is a timeout. -/
theorem unitBoundaryRoutesToTimeout : Obligations.UnitBoundaryRoutesToTimeout := by
  intro s hrst hst hn
  have hfull : full s = false := (full_eq_false_iff s).2 hn.ne
  refine ⟨fun helapsed hlevel => ?_, fun helapsed => ?_⟩
  · have hlt : (elapsed s).toNat < UNIT := by rw [helapsed]; decide
    refine ⟨selects_runChange hrst hst hfull ((tmo_eq_false_iff s).2 hlt) ((chg_eq_true_iff s).2 hlevel), changed s,
      encShort (elapsed s) s.lvl, execRunChange_of_room hn, ?_, recFmt_encShort _ _, ?_⟩
    · rw [changed_buf, Memory.readWord_writeWord_same]
    · exact BitVec.eq_of_toNat_eq (by rw [recCnt_encShort_toNat _ hlt, helapsed]; rfl)
  · have htmo : tmo s = true := (tmo_eq_true_iff s).2 helapsed.ge
    cases hmrg : mrg s with
    | true => exact .inr (selects_runTmoMerge hrst hst hfull htmo hmrg)
    | false => exact .inl (selects_runTmoAppend hrst hst hfull htmo hmrg)

end Sys2Proof.Machine

/-! PROOFS. How an edge of a session ends: TERMINATION_TEST after a commit, the contract of the budget and of a full buffer
(43_session.md rules R158, R162, R171), and what an edge ignores (R153, R161, R165). -/

namespace Sys2Proof.Machine

/-! ### The end of a commit -/

/-- The state `t` is TERMINATION_TEST of a state that differs from `s` in what a commit writes alone: the count, the level, the
boundary and the buffer (R155 to R159). -/
def TestedFrom (s t : State) : Prop :=
  ∃ u n' bud', u = { s with n := u.n, lvl := u.lvl, bnd := u.bnd, buf := u.buf } ∧ t = terminationTest u n' bud'

theorem testedFrom_terminationTest (s : State) (n' : Nat) (bud' : Budget) : TestedFrom s (terminationTest s n' bud') :=
  ⟨s, n', bud', rfl, rfl⟩

theorem testedFrom_changed (s : State) : TestedFrom s (changed s) := ⟨_, _, _, rfl, rfl⟩

theorem testedFrom_timedOut (s : State) : TestedFrom s (timedOut s) := ⟨_, _, _, rfl, rfl⟩

theorem testedFrom_mergedInto (s : State) : TestedFrom s (mergedInto s) := ⟨_, _, _, rfl, rfl⟩

namespace TestedFrom

variable {s t : State}

theorem bounded_eq (h : TestedFrom s t) : t.bounded = s.bounded := by
  obtain ⟨u, n', bud', hu, rfl⟩ := h
  rw [terminationTest_bounded, hu]

/-- The session ends exactly on a stop condition (R158). -/
theorem terminated_iff (h : TestedFrom s t) (hst : s.st = .running) :
    t.st = .terminated ↔ t.n = t.par.nmax ∨ (t.bounded = true ∧ t.bud.toInt < 0) := by
  obtain ⟨u, n', bud', hu, rfl⟩ := h
  have hrun : u.st = .running := by rw [hu]; exact hst
  rw [terminationTest_st_of_running _ _ hrun, terminationTest_n, terminationTest_par, terminationTest_bounded,
    terminationTest_bud]
  split
  · next hstop => exact ⟨fun _ => hstop, fun _ => rfl⟩
  · next hstop => exact ⟨fun h => (by cases h), fun h => absurd h hstop⟩

/-- At its end the session reports both stop conditions and lowers the indicators (R158). -/
theorem report (h : TestedFrom s t) (hst : s.st = .running) (hterm : t.st = .terminated) :
    (t.termFull = true ↔ t.n = t.par.nmax) ∧ (t.termBudget = true ↔ t.bounded = true ∧ t.bud.toInt < 0) ∧
      t.indWait = false ∧ t.indActive = false := by
  obtain ⟨u, n', bud', hu, rfl⟩ := h
  have hrun : u.st = .running := by rw [hu]; exact hst
  rcases terminationTest_cases u n' bud' with ⟨-, ht⟩ | ⟨-, -, ht⟩
  · rw [ht]
    exact ⟨beq_iff_eq, by simp, rfl, rfl⟩
  · rw [ht, hrun] at hterm
    cases hterm

/-- Otherwise the session runs on with its flags and the active indicator up (R158). -/
theorem runs_on (h : TestedFrom s t) (hst : s.st = .running) (hterm : t.st ≠ .terminated) :
    t.st = .running ∧ t.termFull = s.termFull ∧ t.termBudget = s.termBudget ∧ t.indWait = false ∧ t.indActive = true := by
  obtain ⟨u, n', bud', hu, rfl⟩ := h
  rcases terminationTest_cases u n' bud' with ⟨-, ht⟩ | ⟨-, -, ht⟩
  · rw [ht] at hterm
    exact absurd rfl hterm
  · rw [ht, hu]
    exact ⟨hst, rfl, rfl, rfl, rfl⟩

end TestedFrom

/-- A commit that completes with `n <= NMAX` ends in TERMINATION_TEST; a merge with no record to merge into does not complete
(log 8). -/
theorem testedFrom_of_commit {s t : State} {i : Instr} (hn : s.n ≤ s.par.nmax)
    (hi : i.operation = some .runChange ∨ i.operation = some .runTmoAppend ∨ i.operation = some .runTmoMerge)
    (h : exec i s = .next t) : TestedFrom s t := by
  rcases hn.lt_or_eq with hroom | hfull
  · rcases exec_of_commit hi s with hx | hx | hx <;> rw [hx] at h
    · rw [execRunChange_of_room hroom] at h
      cases h
      exact testedFrom_changed s
    · rw [execRunTmoAppend_of_room hroom] at h
      cases h
      exact testedFrom_timedOut s
    · rcases recordTimeoutMerge_cases s with ⟨hpos, -⟩ | ⟨hfull, -⟩ | ⟨-, hr⟩
      · rw [execRunTmoMerge_of_room hpos hroom] at h
        cases h
        exact testedFrom_mergedInto s
      · exact absurd hfull hroom.ne
      · rw [execRunTmoMerge, hr, finishCommit_noSuchIndex] at h
        cases h
  · rw [exec_commit_of_full hfull hi] at h
    cases h
    exact testedFrom_terminationTest s _ _

/-- RUN_FULL is TERMINATION_TEST and nothing else (R159). -/
theorem testedFrom_of_runFull {s t : State} {i : Instr} (hi : i.operation = some .runFull) (h : exec i s = .next t) :
    TestedFrom s t := by
  cases i with
  | runFull =>
    cases h
    exact testedFrom_terminationTest s _ _
  | _ => simp [Instr.operation] at hi

/-- Settles O26: each of these operations is TERMINATION_TEST after what a commit writes, which is neither a flag nor `st`. -/
theorem sessionEndsOnStopCondition : Obligations.SessionEndsOnStopCondition := by
  intro s t i hst hn hi h
  have htested : TestedFrom s t := by
    rcases hi with hi | hi | hi | hi
    · exact testedFrom_of_commit hn (.inl hi) h
    · exact testedFrom_of_commit hn (.inr (.inl hi)) h
    · exact testedFrom_of_commit hn (.inr (.inr hi)) h
    · exact testedFrom_of_runFull hi h
  exact ⟨htested.terminated_iff hst, htested.report hst, htested.runs_on hst⟩

/-! ### The end of a session -/

/-- An edge of a session is a wait, which needs a buffer that is not full, or ends in TERMINATION_TEST (R150). -/
theorem EdgeTo.testedFrom_or_wait {s t : State} (he : EdgeTo s t) (hrst : s.env.ports.rst = false) (hst : s.st = .running) :
    TestedFrom s t ∨ (s.n ≠ s.par.nmax ∧ t = setIndicators s true false) := by
  cases he with
  | reset hrst' => rw [hrst] at hrst'; cases hrst'
  | start _ hst' => exact absurd hst hst'
  | hold _ hst' => exact absurd hst hst'
  | full => exact .inl (testedFrom_terminationTest s _ _)
  | merge => exact .inl (testedFrom_mergedInto s)
  | append => exact .inl (testedFrom_timedOut s)
  | change => exact .inl (testedFrom_changed s)
  | wait _ _ hn => exact .inr ⟨hn, rfl⟩

/-- No edge raises the count beyond `NMAX` (R41). -/
theorem EdgeTo.count_le {s t : State} (he : EdgeTo s t) (hn : s.n ≤ s.par.nmax) : t.n ≤ t.par.nmax := by
  cases he with
  | append _ _ hroom => rw [timedOut_n, timedOut_par]; exact hroom
  | change _ _ hroom => rw [changed_n, changed_par]; exact hroom
  | _ => simp [hn]

/-- Settles O46: with no budget the one stop condition left is the full buffer. -/
theorem unboundedSessionEndsWhenFull : Obligations.UnboundedSessionEndsWhenFull := by
  intro s t p rest hst hb hn hp hrst hstep
  have he := edgeTo_of_step_clock hp hstep
  refine ⟨he.count_le hn, ?_⟩
  rcases he.testedFrom_or_wait hrst hst with htested | ⟨hroom, rfl⟩
  · have hb' : t.bounded = false := htested.bounded_eq.trans hb
    have hend : t.st = .terminated ↔ t.n = t.par.nmax := by simpa [hb'] using htested.terminated_iff hst
    refine ⟨hend, fun h => (htested.runs_on hst h).1, fun h => ?_⟩
    obtain ⟨hfull, hbudget, -, -⟩ := htested.report hst h
    exact ⟨hfull.2 (hend.1 h), by simpa [hb'] using hbudget⟩
  · have hrun : (setIndicators (driveEdge s p rest) true false).st = .running := hst
    exact ⟨by simpa [hst] using hroom, fun _ => hrun, by simp [hst]⟩

/-- An edge records at most one unit (R106, R160). -/
theorem EdgeTo.totalDuration_le {s t : State} (he : EdgeTo s t) (hinv : TraceInv s) :
    totalDuration t ≤ totalDuration s + UNIT := by
  cases he with
  | reset => rw [totalDuration_eq_zero (resetRegisters_n s)]; exact Nat.zero_le _
  | start => rw [totalDuration_eq_zero (beginSession_n s)]; exact Nat.zero_le _
  | hold => exact Nat.le_add_right _ _
  | full _ hst hn => exact absurd hn (hinv.room hst).ne
  | merge _ _ _ _ hmrg => exact (hinv.totalDuration_mergedInto hmrg).le
  | append => exact (totalDuration_timedOut s).le
  | change _ _ _ htmo =>
    rw [totalDuration_changed htmo]
    exact Nat.add_le_add_left ((tmo_eq_false_iff s).1 htmo).le _
  | wait => exact Nat.le_add_right _ _

/-- Settles O45: the ledger reads the records' ticks off the budget, which was not negative before the edge and is after it. -/
theorem budgetStopMeetsTheContract : Obligations.BudgetStopMeetsTheContract := by
  intro s t p rest budget start hinv hstatus hst hledger hp hrst hstep hterm hflag
  have he := edgeTo_of_step_clock hp hstep
  have hinv' : TraceInv (driveEdge s p rest) := hinv.frame rfl rfl rfl rfl rfl
  have hstatus' := stepKeepsStatusInvariant s t hinv hstatus hstep
  obtain ⟨-, hledger'⟩ :=
    edgeKeepsTheLedger s t p rest budget start hinv hstatus (by simp [hst]) hledger hp hrst (.inl hst) hstep
  have hstop : t.bounded = true ∧ t.bud.toInt < 0 := by
    rw [(hstatus'.finished hterm).2] at hflag
    simpa using hflag
  have hbounded : t.bounded = s.bounded := by
    rcases he.testedFrom_or_wait hrst hst with htested | ⟨-, rfl⟩
    · exact htested.bounded_eq
    · rfl
  have hleft := hstatus.left hst (hbounded ▸ hstop.1)
  have hgrowth : totalDuration t ≤ totalDuration s + UNIT := by
    rw [← hinv.totalDuration_driveEdge p rest]
    exact he.totalDuration_le hinv'
  have hbefore := hledger.balance
  have hafter := hledger'.balance
  omega

/-! ### What an edge ignores -/

/-- The edges of a finished session with neither reset nor start are TERM_HOLDs, by induction on their list (R161). -/
theorem runSteps_holds (ps : List Ports) : ∀ {s : State}, s.st = .terminated → s.env.pending = ps.map .clock →
    (∀ p ∈ ps, p.rst = false ∧ p.start = false) →
    ∃ t, runSteps ps.length s = .next t ∧ t = { s with indWait := t.indWait, indActive := t.indActive, env := t.env } := by
  induction ps with
  | nil => exact fun {s} _ _ _ => ⟨s, rfl, rfl⟩
  | cons p ps ih =>
    intro s hst hp hports
    rw [List.forall_mem_cons] at hports
    obtain ⟨⟨hrst, hstart⟩, hports⟩ := hports
    have hstep : step s = .next (setIndicators (driveEdge s p (ps.map .clock)) false false) :=
      step_clock_of_edgeTo hp (.hold hrst (by simp [hst]) hstart)
    obtain ⟨t, ht, hframe⟩ := ih (s := setIndicators (driveEdge s p (ps.map .clock)) false false) hst rfl hports
    exact ⟨t, (runSteps_succ ps.length hstep).trans ht, hframe⟩

/-- Settles O19: what is observed are registers that no hold writes and records that have been written. -/
theorem finishedSessionIsStable : Obligations.FinishedSessionIsStable := by
  intro ps s hinv hst hp hports
  obtain ⟨t, ht, hframe⟩ := runSteps_holds ps hst hp hports
  have hrecords : records t = records s := by
    rw [hframe]
    exact records_congr rfl fun i hi => (hinv.written i hi).imp fun _ hw => ⟨hw.1, hw.1⟩
  refine ⟨t, ht, ?_, hframe⟩
  rw [observation, observation, hrecords, hframe]

/-- The state with other `start` and `tmax_ms` wires. -/
def redrive (start : Bool) (tmaxMs : BitVec 32) (s : State) : State :=
  { s with env := { s.env with ports := { s.env.ports with start := start, tmaxMs := tmaxMs } } }

section
variable (start : Bool) (tmaxMs : BitVec 32) (s : State)

/-- TERMINATION_TEST looks at no wire (R158). -/
theorem redrive_terminationTest (n' : Nat) (bud' : Budget) :
    redrive start tmaxMs (terminationTest s n' bud') = terminationTest (redrive start tmaxMs s) n' bud' := by
  rw [terminationTest_eq, terminationTest_eq]
  rfl

theorem redrive_mergedInto : redrive start tmaxMs (mergedInto s) = mergedInto (redrive start tmaxMs s) :=
  redrive_terminationTest _ _ _ _ _

theorem redrive_timedOut : redrive start tmaxMs (timedOut s) = timedOut (redrive start tmaxMs s) :=
  redrive_terminationTest _ _ _ _ _

theorem redrive_changed : redrive start tmaxMs (changed s) = changed (redrive start tmaxMs s) :=
  redrive_terminationTest _ _ _ _ _
end

/-- `start` is read outside RUNNING alone and `tmax_ms` by START alone, so that an edge which neither starts nor could start
by its new wires leaves the same state but for them (R153). -/
theorem EdgeTo.redrive {s t : State} (he : EdgeTo s t) (start : Bool) (tmaxMs : BitVec 32)
    (h : s.st = .running ∨ s.env.ports.rst = true ∨ (s.env.ports.start = false ∧ start = false)) :
    EdgeTo (redrive start tmaxMs s) (redrive start tmaxMs t) := by
  cases he with
  | reset hrst => exact .reset hrst
  | start hrst hst hstart => simp [hrst, hst, hstart] at h
  | hold hrst hst hstart =>
    obtain ⟨-, rfl⟩ : s.env.ports.start = false ∧ start = false := by simpa [hst, hrst] using h
    exact .hold hrst hst rfl
  | full hrst hst hn =>
    rw [redrive_terminationTest]
    exact .full hrst hst hn
  | merge hrst hst hn htmo hmrg =>
    rw [redrive_mergedInto]
    exact .merge hrst hst hn htmo hmrg
  | append hrst hst hn htmo hmrg =>
    rw [redrive_timedOut]
    exact .append hrst hst hn htmo hmrg
  | change hrst hst hn htmo hchg =>
    rw [redrive_changed]
    exact .change hrst hst hn htmo hchg
  | wait hrst hst hn htmo hchg => exact .wait hrst hst hn htmo hchg

/-- Settles O28: other wires at the edge give the same edge with those wires. -/
theorem startIgnoredWhileRunning : Obligations.StartIgnoredWhileRunning := by
  intro s t p rest start tmaxMs hstep
  have he := edgeTo_of_step_clock rfl hstep
  have hports : t.env.ports = p := congrArg Environment.ports (edge_frame he.exec_eq).1
  refine ⟨fun hst => ?_, fun h => ?_⟩
  · refine step_clock_of_edgeTo rfl ?_
    have hedge := he.redrive start tmaxMs (.inl hst)
    rwa [redrive, redrive, hports] at hedge
  · refine step_clock_of_edgeTo rfl ?_
    have hedge := he.redrive p.start tmaxMs (.inr (h.imp_right fun hstart => ⟨hstart, hstart⟩))
    rwa [redrive, redrive, hports] at hedge

section
variable (wait active : Bool) (s : State)

/-- TERMINATION_TEST writes both indicators, so what they were is lost (R158, R165). -/
theorem terminationTest_setIndicators (n' : Nat) (bud' : Budget) :
    terminationTest (setIndicators s wait active) n' bud' = terminationTest s n' bud' := by
  rw [terminationTest_eq, terminationTest_eq]
  rfl

theorem mergedInto_setIndicators : mergedInto (setIndicators s wait active) = mergedInto s :=
  terminationTest_setIndicators wait active
    { s with buf := Memory.writeWord s.buf (s.n - 1) (bumpCount (bufRead s (s.n - 1))), bnd := advanced s.bnd } _ _

theorem timedOut_setIndicators : timedOut (setIndicators s wait active) = timedOut s :=
  terminationTest_setIndicators wait active
    { s with buf := Memory.writeWord s.buf s.n (encLong 1 s.lvl), n := s.n + 1, bnd := advanced s.bnd } _ _

theorem changed_setIndicators : changed (setIndicators s wait active) = changed s :=
  terminationTest_setIndicators wait active
    { s with
      buf := Memory.writeWord s.buf s.n (encShort (elapsed s) s.lvl), n := s.n + 1, lvl := s.env.ports.levelIn,
      bnd := s.env.ports.tickIn } _ _
end

/-- Every operation writes both indicators and none reads them (R165). -/
theorem EdgeTo.of_setIndicators {s t : State} (he : EdgeTo s t) (wait active : Bool) :
    EdgeTo (setIndicators s wait active) t := by
  cases he with
  | reset hrst => exact .reset hrst
  | start hrst hst hstart => exact .start hrst hst hstart
  | hold hrst hst hstart => exact .hold hrst hst hstart
  | full hrst hst hn =>
    rw [← terminationTest_setIndicators wait active]
    exact .full hrst hst hn
  | merge hrst hst hn htmo hmrg =>
    rw [← mergedInto_setIndicators wait active]
    exact .merge hrst hst hn htmo hmrg
  | append hrst hst hn htmo hmrg =>
    rw [← timedOut_setIndicators wait active]
    exact .append hrst hst hn htmo hmrg
  | change hrst hst hn htmo hchg =>
    rw [← changed_setIndicators wait active]
    exact .change hrst hst hn htmo hchg
  | wait hrst hst hn htmo hchg => exact .wait hrst hst hn htmo hchg

/-- After a commit of a running session the active indicator says whether the session runs on (R158, R165). -/
theorem indicators_of_commit {s t : State} {op : Operation} (h : TestedFrom s t) (hst : s.st = .running)
    (hop : isCommit op = true) :
    (t.indWait = true ↔ op = .start ∨ op = .runWait) ∧ (t.indActive = true ↔ isCommit op = true ∧ t.st = .running) := by
  have hnot : ¬(op = .start ∨ op = .runWait) := by rintro (rfl | rfl) <;> cases hop
  by_cases hterm : t.st = .terminated
  · obtain ⟨-, -, hwait, hactive⟩ := h.report hst hterm
    simp [hwait, hactive, hnot, hterm]
  · obtain ⟨hrun, -, -, hwait, hactive⟩ := h.runs_on hst hterm
    simp [hwait, hactive, hnot, hrun, hop]

/-- What the two indicators say after an edge, one operation after another (R165). -/
theorem EdgeTo.indicators {s t : State} {op : Operation} (he : EdgeTo s t) (hsel : selects s op) :
    (t.indWait = true ↔ op = .start ∨ op = .runWait) ∧ (t.indActive = true ↔ isCommit op = true ∧ t.st = .running) := by
  cases he with
  | reset hrst =>
    obtain rfl := selects_unique hsel (selects_reset hrst)
    simp [isCommit]
  | start hrst hst hstart =>
    obtain rfl := selects_unique hsel (selects_start hrst hstart hst)
    simp [isCommit]
  | hold hrst hst hstart =>
    cases h : s.st with
    | running => exact absurd h hst
    | idle =>
      obtain rfl := selects_unique hsel (selects_idleHold hrst hstart h)
      simp [isCommit]
    | terminated =>
      obtain rfl := selects_unique hsel (selects_termHold hrst hstart h)
      simp [isCommit]
  | full hrst hst hn =>
    obtain rfl := selects_unique hsel (selects_runFull hrst hst ((full_eq_true_iff s).2 hn))
    simp [terminationTest_of_full hn, isCommit]
  | merge hrst hst hn htmo hmrg =>
    obtain rfl := selects_unique hsel (selects_runTmoMerge hrst hst ((full_eq_false_iff s).2 hn.ne) htmo hmrg)
    exact indicators_of_commit (testedFrom_mergedInto s) hst rfl
  | append hrst hst hn htmo hmrg =>
    obtain rfl := selects_unique hsel (selects_runTmoAppend hrst hst ((full_eq_false_iff s).2 hn.ne) htmo hmrg)
    exact indicators_of_commit (testedFrom_timedOut s) hst rfl
  | change hrst hst hn htmo hchg =>
    obtain rfl := selects_unique hsel (selects_runChange hrst hst ((full_eq_false_iff s).2 hn.ne) htmo hchg)
    exact indicators_of_commit (testedFrom_changed s) hst rfl
  | wait hrst hst hn htmo hchg =>
    obtain rfl := selects_unique hsel (selects_runWait hrst hst ((full_eq_false_iff s).2 hn) htmo hchg)
    simp [isCommit]

/-- Settles O29: every operation writes both indicators, and none reads them. -/
theorem indicatorsMarkThePhases : Obligations.IndicatorsMarkThePhases := by
  intro s t p rest op hp hsel _ hstep
  have he := edgeTo_of_step_clock hp hstep
  obtain ⟨hwait, hactive⟩ := he.indicators hsel
  exact ⟨hwait, hactive, fun wait active => step_clock_of_edgeTo hp (he.of_setIndicators wait active)⟩

end Sys2Proof.Machine

/-! PROOFS. The inspection port: what READ answers, address by address (44_inspect.md rule R190). -/

namespace Sys2Proof.Machine

/-- READ completes in every state and gives the reader the port's word at the address it drives (R190). -/
theorem exec_read (s : State) : exec .read s = .next { s with env := { s.env with rdWord := rdData s s.env.rdAddr } } := rfl

/-- Outside a session the port answers zero beyond the capacity (R190). -/
theorem rdData_of_nmax_le {s : State} {i : Nat} (hst : s.st ≠ .running) (hi : s.par.nmax ≤ i) : rdData s i = 0 := by
  rw [rdData, if_neg hst, if_pos hi]

/-- Outside a session the port shows the word stored below the count, at any index of the buffer: `rdData_of_record`
with the capacity asked of the address, so that the count need not be bounded. -/
theorem rdData_of_readWord {s : State} {i : Nat} {w : Word} (hst : s.st ≠ .running) (hnmax : i < s.par.nmax) (hi : i < s.n)
    (hw : Memory.readWord s.buf i = some w) : rdData s i = w := by
  rw [rdData, if_neg hst, if_neg hnmax.not_ge, if_pos hi, bufRead_of_readWord hw]

/-- Settles O31: the reader's word is the port's, which outside a session is zero beyond the buffer and the record within it. -/
theorem readAnswersByAddress : Obligations.ReadAnswersByAddress := by
  intro s
  exact ⟨rdData s s.env.rdAddr, exec_read s, rdData_of_nmax_le,
    fun hst hnmax hi _ hw => rdData_of_readWord hst hnmax hi hw⟩

end Sys2Proof.Machine

/-! PROOFS. No clock edge faults (60_exceptions.md rule R200): `exists_edgeTo` gives what the edge leaves, and the step at a
scripted or a free edge leaves it. -/

namespace Sys2Proof.Machine

/-- An edge that can be taken is the step at a free edge: `step_clock_of_edgeTo` with no event left (R209; log 3). -/
theorem step_free_of_edgeTo {s t : State} (hp : s.env.pending = [])
    (he : EdgeTo (driveEdge s (freePorts s.env.edges) []) t) : step s = .next t :=
  (step_free hp).trans he.exec_eq

/-- Settles O14: driving the wires changes neither `n` nor `NMAX`, so the driven state still has an edge to take. -/
theorem everyEdgeCompletes : Obligations.EveryEdgeCompletes := by
  rintro s hn (hfree | ⟨p, rest, hclock⟩)
  · obtain ⟨t, he⟩ := exists_edgeTo (s := driveEdge s (freePorts s.env.edges) []) hn
    exact ⟨t, step_free_of_edgeTo hfree he⟩
  · obtain ⟨t, he⟩ := exists_edgeTo (s := driveEdge s p rest) hn
    exact ⟨t, step_clock_of_edgeTo hclock he⟩

end Sys2Proof.Machine

/-! PROOFS. RESET (70_reset_and_hazards.md rule R220): its meaning is `resetRegisters`, whose fields the laws of the state list, and
`selects_reset` gives the selection. -/

namespace Sys2Proof.Machine

/-- RESET reads none of the bits its row ignores, and it never stops (R220; log 20). -/
theorem exec_reset (st : BitVec 2) (start tmo chg mrg full : Bool) (s : State) :
    exec (.reset st start tmo chg mrg full) s = .next (resetRegisters s) := rfl

/-- Settles O16: RESET's writes are those of `resetRegisters`, and `rst` is the first condition of R150's order. -/
theorem resetWritesEveryRegister : Obligations.ResetWritesEveryRegister :=
  ⟨exec_reset, fun _ hrst => selects_reset hrst⟩

end Sys2Proof.Machine
